-- ==== Sys2Proof/Word.lean ====
section
/-! DEFINITION. The word types of the CHIP-8 core: the 8-bit data width and the 16-bit instruction and
address-register width (00_scope.md R8, 90_conflicts.md C8). -/

namespace Sys2Proof

/-- A memory cell, a general register or a timer: 8 bits (R8: `MEM_CELL`, `V_WIDTH`, `TIMER_WIDTH`). -/
abbrev Byte := BitVec 8

/-- An instruction word, `I`, `PC` or a stack entry: 16 bits (R8: `INSN_WIDTH`, `I_WIDTH`, `PC_WIDTH`,
`STACK_ENTRY_WIDTH`). -/
abbrev Word := BitVec 16

/-- The index of a general register, V0 to VF (R20). -/
abbrev Reg := Fin 16

/-- A 12-bit address immediate `NNN` (R62). -/
abbrev Addr12 := BitVec 12

/-- A 4-bit field used as a number, `N` (R62). -/
abbrev Nibble := BitVec 4

/-- A flag value as VF holds it: 0x01 or 0x00 (R23). -/
def flagByte (b : Bool) : Byte := if b then 1 else 0

end Sys2Proof
end

