-- ==== Sys2Proof/Syntax.lean ====
section
/-! DEFINITION. The instructions of the core as syntax: one constructor for each of the 35 rows of
spec/opcode_table.json (30_encoding.md R67), in the table's order. -/

namespace Sys2Proof

/-- An instruction with the fields it uses (R62, R63). The docstring of a constructor gives the row's pattern and
its syntax (R72). -/
inductive Instr where
  /-- `0NNN`, `SYS addr` (R92). -/
  | sys (nnn : Addr12)
  /-- `00E0`, `CLS` (R93). -/
  | cls
  /-- `00EE`, `RET` (R94). -/
  | ret
  /-- `1NNN`, `JP addr` (R95). -/
  | jp (nnn : Addr12)
  /-- `2NNN`, `CALL addr` (R96). -/
  | call (nnn : Addr12)
  /-- `3XNN`, `SE Vx, byte` (R98). -/
  | seByte (x : Reg) (nn : Byte)
  /-- `4XNN`, `SNE Vx, byte` (R99). -/
  | sneByte (x : Reg) (nn : Byte)
  /-- `5XY0`, `SE Vx, Vy` (R100). -/
  | seReg (x y : Reg)
  /-- `6XNN`, `LD Vx, byte` (R102). -/
  | ldByte (x : Reg) (nn : Byte)
  /-- `7XNN`, `ADD Vx, byte` (R103). -/
  | addByte (x : Reg) (nn : Byte)
  /-- `8XY0`, `LD Vx, Vy` (R104). -/
  | ldReg (x y : Reg)
  /-- `8XY1`, `OR Vx, Vy` (R105). -/
  | orReg (x y : Reg)
  /-- `8XY2`, `AND Vx, Vy` (R106). -/
  | andReg (x y : Reg)
  /-- `8XY3`, `XOR Vx, Vy` (R107). -/
  | xorReg (x y : Reg)
  /-- `8XY4`, `ADD Vx, Vy` (R108). -/
  | addReg (x y : Reg)
  /-- `8XY5`, `SUB Vx, Vy` (R109). -/
  | subReg (x y : Reg)
  /-- `8XY6`, `SHR Vx` (R110): the word's `Y` field is ignored (R63, D27; log 11). -/
  | shr (x : Reg)
  /-- `8XY7`, `SUBN Vx, Vy` (R111). -/
  | subnReg (x y : Reg)
  /-- `8XYE`, `SHL Vx` (R112): the word's `Y` field is ignored (R63, D27; log 11). -/
  | shl (x : Reg)
  /-- `9XY0`, `SNE Vx, Vy` (R101). -/
  | sneReg (x y : Reg)
  /-- `ANNN`, `LD I, addr` (R116). -/
  | ldI (nnn : Addr12)
  /-- `BNNN`, `JP V0, addr` (R97). -/
  | jpV0 (nnn : Addr12)
  /-- `CXNN`, `RND Vx, byte` (R114). -/
  | rnd (x : Reg) (nn : Byte)
  /-- `DXYN`, `DRW Vx, Vy, nibble` (R122). -/
  | drw (x y : Reg) (n : Nibble)
  /-- `EX9E`, `SKP Vx` (R127). -/
  | skp (x : Reg)
  /-- `EXA1`, `SKNP Vx` (R128). -/
  | sknp (x : Reg)
  /-- `FX07`, `LD Vx, DT` (R130). -/
  | ldVxDt (x : Reg)
  /-- `FX0A`, `LD Vx, K` (R129). -/
  | ldVxK (x : Reg)
  /-- `FX15`, `LD DT, Vx` (R131). -/
  | ldDtVx (x : Reg)
  /-- `FX18`, `LD ST, Vx` (R132). -/
  | ldStVx (x : Reg)
  /-- `FX1E`, `ADD I, Vx` (R117). -/
  | addI (x : Reg)
  /-- `FX29`, `LD F, Vx` (R118). -/
  | ldF (x : Reg)
  /-- `FX33`, `LD B, Vx` (R119). -/
  | ldB (x : Reg)
  /-- `FX55`, `LD [I], Vx` (R120). -/
  | storeRegs (x : Reg)
  /-- `FX65`, `LD Vx, [I]` (R121). -/
  | loadRegs (x : Reg)
  deriving DecidableEq, Repr

end Sys2Proof
end

