-- ==== Sys2Proof/Decode.lean ====
section
/-! DEFINITION. From words to instructions and back (30_encoding.md R61 to R71): the fields of a word, the decoder,
total on all 65536 words, the encoder written from the same formats, and the opcode table's `mask` and `match`
columns (R74). -/

namespace Sys2Proof

/-! ### The fields of a word (R62) -/

/-- `op` = `w[15:12]`. -/
def fieldOp (w : Word) : Nibble := w.extractLsb' 12 4

/-- `X` = `w[11:8]`, a register index. -/
def fieldX (w : Word) : Reg := ⟨(w.extractLsb' 8 4).toNat, (w.extractLsb' 8 4).isLt⟩

/-- `Y` = `w[7:4]`, a register index. -/
def fieldY (w : Word) : Reg := ⟨(w.extractLsb' 4 4).toNat, (w.extractLsb' 4 4).isLt⟩

/-- `N` = `w[3:0]`. -/
def fieldN (w : Word) : Nibble := w.extractLsb' 0 4

/-- `NN` = `w[7:0]`. -/
def fieldNN (w : Word) : Byte := w.extractLsb' 0 8

/-- `NNN` = `w[11:0]`. -/
def fieldNNN (w : Word) : Addr12 := w.extractLsb' 0 12

/-! ### The decoder (R65) -/

/-- Why bytes are no instruction of the table. All but `truncated` name the group of an unrecognized word (R69),
which the step executes as a no-op (R90). -/
inductive Unrecognized where
  /-- Fewer than two bytes: no word at all. The step's fetch never hands the decoder so few (R79). -/
  | truncated
  /-- `5XYN` with `N ≠ 0`. -/
  | group5
  /-- `8XYN` with `N` in 0x8 to 0xD or 0xF. -/
  | group8
  /-- `9XYN` with `N ≠ 0`. -/
  | group9
  /-- `EXNN` with `NN` neither 0x9E nor 0xA1. -/
  | groupE
  /-- `FXNN` with `NN` none of the nine sub-operations. -/
  | groupF
  deriving DecidableEq, Repr

/-- Group 0: `CLS` and `RET` as whole words only, every other word `SYS` (R65, R68; C12). -/
def decodeGroup0 (w : Word) : Instr :=
  if w = 0x00E0 then .cls else if w = 0x00EE then .ret else .sys (fieldNNN w)

/-- Group 8, by the low nibble (R65). -/
def decodeGroup8 (w : Word) : Except Unrecognized Instr :=
  let x := fieldX w
  let y := fieldY w
  if fieldN w = 0x0 then .ok (.ldReg x y)
  else if fieldN w = 0x1 then .ok (.orReg x y)
  else if fieldN w = 0x2 then .ok (.andReg x y)
  else if fieldN w = 0x3 then .ok (.xorReg x y)
  else if fieldN w = 0x4 then .ok (.addReg x y)
  else if fieldN w = 0x5 then .ok (.subReg x y)
  else if fieldN w = 0x6 then .ok (.shr x)
  else if fieldN w = 0x7 then .ok (.subnReg x y)
  else if fieldN w = 0xE then .ok (.shl x)
  else .error .group8

/-- Group E, by the low byte (R65). -/
def decodeGroupE (w : Word) : Except Unrecognized Instr :=
  if fieldNN w = 0x9E then .ok (.skp (fieldX w))
  else if fieldNN w = 0xA1 then .ok (.sknp (fieldX w))
  else .error .groupE

/-- Group F, by the low byte (R65). -/
def decodeGroupF (w : Word) : Except Unrecognized Instr :=
  let x := fieldX w
  if fieldNN w = 0x07 then .ok (.ldVxDt x)
  else if fieldNN w = 0x0A then .ok (.ldVxK x)
  else if fieldNN w = 0x15 then .ok (.ldDtVx x)
  else if fieldNN w = 0x18 then .ok (.ldStVx x)
  else if fieldNN w = 0x1E then .ok (.addI x)
  else if fieldNN w = 0x29 then .ok (.ldF x)
  else if fieldNN w = 0x33 then .ok (.ldB x)
  else if fieldNN w = 0x55 then .ok (.storeRegs x)
  else if fieldNN w = 0x65 then .ok (.loadRegs x)
  else .error .groupF

/-- The instruction a word stands for, or the group of an unrecognized word (R65, R69, R80). -/
def decode (w : Word) : Except Unrecognized Instr :=
  if fieldOp w = 0x0 then .ok (decodeGroup0 w)
  else if fieldOp w = 0x1 then .ok (.jp (fieldNNN w))
  else if fieldOp w = 0x2 then .ok (.call (fieldNNN w))
  else if fieldOp w = 0x3 then .ok (.seByte (fieldX w) (fieldNN w))
  else if fieldOp w = 0x4 then .ok (.sneByte (fieldX w) (fieldNN w))
  else if fieldOp w = 0x5 then
    if fieldN w = 0x0 then .ok (.seReg (fieldX w) (fieldY w)) else .error .group5
  else if fieldOp w = 0x6 then .ok (.ldByte (fieldX w) (fieldNN w))
  else if fieldOp w = 0x7 then .ok (.addByte (fieldX w) (fieldNN w))
  else if fieldOp w = 0x8 then decodeGroup8 w
  else if fieldOp w = 0x9 then
    if fieldN w = 0x0 then .ok (.sneReg (fieldX w) (fieldY w)) else .error .group9
  else if fieldOp w = 0xA then .ok (.ldI (fieldNNN w))
  else if fieldOp w = 0xB then .ok (.jpV0 (fieldNNN w))
  else if fieldOp w = 0xC then .ok (.rnd (fieldX w) (fieldNN w))
  else if fieldOp w = 0xD then .ok (.drw (fieldX w) (fieldY w) (fieldN w))
  else if fieldOp w = 0xE then decodeGroupE w
  else decodeGroupF w

/-- The word two bytes form: the byte at the lower address is `w[15:8]` (R45, R79). -/
def wordOfBytes (hi lo : Byte) : Word := hi ++ lo

/-- `w[15:8]`, the byte at the lower address (R45). -/
def highByte (w : Word) : Byte := w.extractLsb' 8 8

/-- `w[7:0]`, the byte at the higher address (R45). -/
def lowByte (w : Word) : Byte := w.extractLsb' 0 8

/-- The decoder on bytes: it takes exactly two and hands back the rest (R61, R71). -/
def decodeBytes : List Byte → Except Unrecognized (Instr × List Byte)
  | hi :: lo :: rest => (decode (wordOfBytes hi lo)).map fun i => (i, rest)
  | [_] | [] => .error .truncated

/-- The two bytes, in memory order, of an instruction whose bits are `w`, numbered as the opcode table numbers them
(bit 0 the least significant bit of the one word), bits from `nbits` up being 0. -/
def tableWordBytes (nbits w : Nat) : List Byte :=
  let word : Word := BitVec.ofNat 16 (w % 2 ^ nbits)
  [highByte word, lowByte word]

/-- The instruction the decoder reads from those bytes (none where the word is unrecognized). -/
def decodeTableWord (nbits w : Nat) : Option Instr :=
  match decodeBytes (tableWordBytes nbits w) with
  | .ok (i, _) => some i
  | .error _ => none

/-! ### The encoder (R63) -/

/-- The 4-bit field that names a register. -/
def regBits (r : Reg) : Nibble := BitVec.ofNat 4 r.val

/-- Format `F_NNN`. -/
def formatNNN (op : Nibble) (nnn : Addr12) : Word := op ++ nnn

/-- Format `F_XNN`, and format `F_X` with the sub-operation in place of the immediate. -/
def formatXNN (op : Nibble) (x : Reg) (nn : Byte) : Word := op ++ regBits x ++ nn

/-- Format `F_XYN`, and format `F_XY` with the sub-operation in place of the immediate. -/
def formatXYN (op : Nibble) (x y : Reg) (n : Nibble) : Word := op ++ regBits x ++ regBits y ++ n

/-- The word of an instruction (R63). `SHR` and `SHL` are written with `Y = 0` (R72, D27). -/
def encode : Instr → Word
  | .sys nnn => formatNNN 0x0 nnn
  | .cls => 0x00E0
  | .ret => 0x00EE
  | .jp nnn => formatNNN 0x1 nnn
  | .call nnn => formatNNN 0x2 nnn
  | .seByte x nn => formatXNN 0x3 x nn
  | .sneByte x nn => formatXNN 0x4 x nn
  | .seReg x y => formatXYN 0x5 x y 0x0
  | .ldByte x nn => formatXNN 0x6 x nn
  | .addByte x nn => formatXNN 0x7 x nn
  | .ldReg x y => formatXYN 0x8 x y 0x0
  | .orReg x y => formatXYN 0x8 x y 0x1
  | .andReg x y => formatXYN 0x8 x y 0x2
  | .xorReg x y => formatXYN 0x8 x y 0x3
  | .addReg x y => formatXYN 0x8 x y 0x4
  | .subReg x y => formatXYN 0x8 x y 0x5
  | .shr x => formatXYN 0x8 x 0 0x6
  | .subnReg x y => formatXYN 0x8 x y 0x7
  | .shl x => formatXYN 0x8 x 0 0xE
  | .sneReg x y => formatXYN 0x9 x y 0x0
  | .ldI nnn => formatNNN 0xA nnn
  | .jpV0 nnn => formatNNN 0xB nnn
  | .rnd x nn => formatXNN 0xC x nn
  | .drw x y n => formatXYN 0xD x y n
  | .skp x => formatXNN 0xE x 0x9E
  | .sknp x => formatXNN 0xE x 0xA1
  | .ldVxDt x => formatXNN 0xF x 0x07
  | .ldVxK x => formatXNN 0xF x 0x0A
  | .ldDtVx x => formatXNN 0xF x 0x15
  | .ldStVx x => formatXNN 0xF x 0x18
  | .addI x => formatXNN 0xF x 0x1E
  | .ldF x => formatXNN 0xF x 0x29
  | .ldB x => formatXNN 0xF x 0x33
  | .storeRegs x => formatXNN 0xF x 0x55
  | .loadRegs x => formatXNN 0xF x 0x65

/-! ### The opcode table's columns (R74) -/

/-- The row's `mask`: the bits of the word that are fixed. -/
def rowMask : Instr → Word
  | .cls | .ret => 0xFFFF
  | .sys _ | .jp _ | .call _ | .seByte _ _ | .sneByte _ _ | .ldByte _ _ | .addByte _ _ | .ldI _ | .jpV0 _
  | .rnd _ _ | .drw _ _ _ => 0xF000
  | .seReg _ _ | .sneReg _ _ | .ldReg _ _ | .orReg _ _ | .andReg _ _ | .xorReg _ _ | .addReg _ _ | .subReg _ _
  | .shr _ | .subnReg _ _ | .shl _ => 0xF00F
  | .skp _ | .sknp _ | .ldVxDt _ | .ldVxK _ | .ldDtVx _ | .ldStVx _ | .addI _ | .ldF _ | .ldB _ | .storeRegs _
  | .loadRegs _ => 0xF0FF

/-- The row's `match`: the value of the fixed bits. -/
def rowMatch : Instr → Word
  | .sys _ => 0x0000
  | .cls => 0x00E0
  | .ret => 0x00EE
  | .jp _ => 0x1000
  | .call _ => 0x2000
  | .seByte _ _ => 0x3000
  | .sneByte _ _ => 0x4000
  | .seReg _ _ => 0x5000
  | .ldByte _ _ => 0x6000
  | .addByte _ _ => 0x7000
  | .ldReg _ _ => 0x8000
  | .orReg _ _ => 0x8001
  | .andReg _ _ => 0x8002
  | .xorReg _ _ => 0x8003
  | .addReg _ _ => 0x8004
  | .subReg _ _ => 0x8005
  | .shr _ => 0x8006
  | .subnReg _ _ => 0x8007
  | .shl _ => 0x800E
  | .sneReg _ _ => 0x9000
  | .ldI _ => 0xA000
  | .jpV0 _ => 0xB000
  | .rnd _ _ => 0xC000
  | .drw _ _ _ => 0xD000
  | .skp _ => 0xE09E
  | .sknp _ => 0xE0A1
  | .ldVxDt _ => 0xF007
  | .ldVxK _ => 0xF00A
  | .ldDtVx _ => 0xF015
  | .ldStVx _ => 0xF018
  | .addI _ => 0xF01E
  | .ldF _ => 0xF029
  | .ldB _ => 0xF033
  | .storeRegs _ => 0xF055
  | .loadRegs _ => 0xF065

end Sys2Proof
end

