-- ==== Sys2Proof/Config.lean ====
section
/-! DEFINITION. What an implementation fixes (the named parameters of 00_scope.md R8) and the one free value,
the random byte. The parameters' defaults are in Machine/Params.lean. -/

namespace Sys2Proof

/-- `SUB_VF_POLARITY` (R8, R109, R111; D9): what VF = 1 means after a subtraction. -/
inductive Polarity where
  /-- VF = 1 when no borrow occurred. -/
  | noBorrow
  /-- VF = 1 when a borrow occurred. -/
  | borrow
  deriving DecidableEq, Repr

/-- `FONT`: 16 glyphs of 5 bytes (10_state.md R40). -/
abbrev Font := Vector Byte 80

/-- The named parameters of R8, which a model takes as an argument. -/
structure Config where
  /-- `SUB_VF_POLARITY` (R109, R111). -/
  subVfPolarity : Polarity
  /-- `DRAW_VF_CLEAR` (R125): `DXYN` writes VF = 0 when nothing collides. -/
  drawVfClear : Bool
  /-- `TICK_DURING_STALL` (R86): the timers tick in an `FX0A` stall step. -/
  tickDuringStall : Bool
  /-- `RESERVED_WRITE_FAULT` (R50): a data write below 0x200 faults. -/
  reservedWriteFault : Bool
  /-- `FONT` (R40, D21): what `initialize` copies to 0x000. -/
  font : Font
  deriving DecidableEq, Repr

/-- The random byte of the `n`-th draw (R115: "a free input under no law", D20). It has no body: nothing proved
about the model knows one of its values. Log 6. -/
opaque Config.rnd : Nat → Byte

end Sys2Proof
end

