-- ==== Sys2Proof/Machine/Params.lean ====
section
/-! DEFINITION. The default value of each parameter of 00_scope.md R8, and the reset contents of memory under any
setting. The settings a machine runs with are the field `params` of its state (log 20). -/

namespace Sys2Proof.Machine

/-- The glyphs of the digits 0 to 7 (R40). -/
def fontLow : List Byte :=
  [0xF0, 0x90, 0x90, 0x90, 0xF0,
   0x20, 0x60, 0x20, 0x20, 0x70,
   0xF0, 0x10, 0xF0, 0x80, 0xF0,
   0xF0, 0x10, 0xF0, 0x10, 0xF0,
   0x90, 0x90, 0xF0, 0x10, 0x10,
   0xF0, 0x80, 0xF0, 0x10, 0xF0,
   0xF0, 0x80, 0xF0, 0x90, 0xF0,
   0xF0, 0x10, 0x20, 0x40, 0x40]

/-- The glyphs of the digits 8 to F (R40). -/
def fontHigh : List Byte :=
  [0xF0, 0x90, 0xF0, 0x90, 0xF0,
   0xF0, 0x90, 0xF0, 0x10, 0xF0,
   0xF0, 0x90, 0xF0, 0x90, 0x90,
   0xE0, 0x90, 0xE0, 0x90, 0xE0,
   0xF0, 0x80, 0x80, 0x80, 0xF0,
   0xE0, 0x90, 0x90, 0x90, 0xE0,
   0xF0, 0x80, 0xF0, 0x80, 0xF0,
   0xF0, 0x80, 0xF0, 0x80, 0x80]

/-- The default of `FONT` (R40, D21). PRESUMED by the spec from general knowledge, log 5. -/
def defaultFont : List Byte := fontLow ++ fontHigh

/-- R8's defaults: the settings of a machine as `State.reset` leaves it. Logs 1 to 5. -/
def config : Config where
  subVfPolarity := .noBorrow
  drawVfClear := true
  tickDuringStall := true
  reservedWriteFault := true
  font := ⟨⟨defaultFont⟩, rfl⟩

/-- What `initialize` leaves at address `a` of a machine with the settings `c`: `FONT` from 0x000, and 0x00 from 0x050
(R32, R151, R152). -/
def resetByte (c : Config) (a : Nat) : Byte := c.font.toList.getD a 0x00

end Sys2Proof.Machine
end

