-- ==== Sys2Proof/Machine/Memory.lean ====
section
/-! DEFINITION. Memory as plain data: a list of (address, byte) pairs in one canonical form, over the one address
space 0x000 to 0xFFF (20_memory.md R41). An address that is not listed holds what it holds after an
`initialize` with the default `FONT` (10_state.md R32, R40). With another `FONT` the cells that differ are listed
(log 16). -/

namespace Sys2Proof.Machine

/-- Memory: the cells that differ from what an unlisted address reads as, in rising address order. -/
abbrev Memory := List Host.Cell

/-- `MEM_SIZE`, the number of cells (R8). -/
def memSize : Nat := 0x1000

/-- `PROGRAM_BASE`, where programs are loaded and where the reserved range ends (R8, R43). -/
def programBase : Nat := 0x200

/-- What an unlisted address reads as, whatever the settings of the machine: the default `FONT` from 0x000 and 0x00
from 0x050 (R32, R40, R151). It is a matter of representation: `State.initial` writes any other `FONT` (log 16). -/
def Memory.unlisted (a : Nat) : Byte := defaultFont.getD a 0x00

/-- The byte at address `a`. -/
def Memory.read : Memory → Nat → Byte
  | [], a => Memory.unlisted a
  | (k, b) :: m, a => if k = a then b else Memory.read m a

/-- List `v` at `a`, in address order. -/
def Memory.insert (a : Nat) (v : Byte) : Memory → Memory
  | [] => [(a, v)]
  | (k, b) :: m =>
    if a < k then (a, v) :: (k, b) :: m
    else if a = k then (a, v) :: m
    else (k, b) :: Memory.insert a v m

/-- Take `a` off the list. -/
def Memory.erase (a : Nat) : Memory → Memory
  | [] => []
  | (k, b) :: m => if k = a then Memory.erase a m else (k, b) :: Memory.erase a m

/-- Set the byte at `a`, keeping the canonical form. -/
def Memory.write (m : Memory) (a : Nat) (v : Byte) : Memory :=
  if v = Memory.unlisted a then Memory.erase a m else Memory.insert a v m

/-- Set consecutive bytes from `a` upward. -/
def Memory.writeList : Memory → Nat → List Byte → Memory
  | m, _, [] => m
  | m, a, b :: bs => Memory.writeList (Memory.write m a b) (a + 1) bs

/-- The canonical form: every address exists, addresses strictly rise, and no entry equals what
its address reads as unlisted. -/
def Memory.wf : Memory → Bool
  | [] => true
  | (k, b) :: m => decide (k < memSize) && b != Memory.unlisted k && m.all (fun c => decide (k < c.1)) && Memory.wf m

end Sys2Proof.Machine
end

