-- ==== Sys2Proof/Machine/State.lean ====
section
/-! DEFINITION. The state of the core (10_state.md R17), the reasons a step of the model can stop, and the state
after `initialize` (70_reset_and_hazards.md R151). -/

namespace Sys2Proof.Machine

/-- The cause codes of a latched fault (60_exceptions.md R134). -/
inductive Cause where
  /-- Code 0, `NONE`. -/
  | noFault
  /-- Code 1, `FETCH_OOB`: fetch with `PC > 0xFFE` (R79). -/
  | fetchOob
  /-- Code 2, `MEM_OOB`: a data address above 0xFFF (R48). -/
  | memOob
  /-- Code 3, `STACK_OVERFLOW`: `2NNN` with `SP = 16` (R96). -/
  | stackOverflow
  /-- Code 4, `STACK_UNDERFLOW`: `00EE` with `SP = 0` (R94). -/
  | stackUnderflow
  /-- Code 5, `KEY_RANGE`: `EX9E` or `EXA1` with `VX > 15` (R127, R128). -/
  | keyRange
  /-- Code 6, `RESERVED_WRITE`: a data write below 0x200 (R50). -/
  | reservedWrite
  deriving DecidableEq, Repr

/-- `FAULT`, the pair `(cause, info)` (R33). -/
structure FaultStatus where
  cause : Cause
  info : Nat
  deriving DecidableEq, Repr

/-- The outputs of a step that are not state of the core (R6, R83): `blocked` and `tone`. The third output, `fault`,
is the `FAULT` the step leaves. -/
structure Outputs where
  blocked : Bool
  tone : Bool
  deriving DecidableEq, Repr

/-- `blocked = 0`, `tone = 0`: what every step starts with (R77). -/
def Outputs.clear : Outputs := ⟨false, false⟩

/-- The frame buffer, `FB[x][y]`: 64 columns of 32 pixels (R36). -/
abbrev FrameBuffer := Vector (Vector Bool 32) 64

/-- Every pixel dark (R36). -/
def FrameBuffer.blank : FrameBuffer := Vector.replicate 64 (Vector.replicate 32 false)

/-- The state of the core: everything R17 lists, and three fields of the model's own, named so. -/
structure State where
  /-- `M[0x000..0xFFF]` (R32). -/
  mem : Memory
  /-- `V[0..15]`, VF being register 15 (R19, R20). -/
  v : Vector Byte 16
  /-- `I` (R27). -/
  i : Word
  /-- `PC` (R24). -/
  pc : Word
  /-- `STACK[0..15]` (R28). -/
  stack : Vector Word 16
  /-- `SP`, 0 to 16: the number of entries in use, the index of the next free one (R29). -/
  sp : Fin 17
  /-- `DT` (R30). -/
  dt : Byte
  /-- `ST` (R31). -/
  st : Byte
  /-- `FB` (R36). -/
  fb : FrameBuffer
  /-- `KEY[0..15]`, true for pressed (R37). -/
  keys : Vector Bool 16
  /-- `FAULT` (R33). -/
  fault : FaultStatus
  /-- THE MODEL'S OWN: the outputs of the last step (R83). DESIGN CHOICE, log 8. -/
  out : Outputs
  /-- THE MODEL'S OWN: how many `rnd` draws have been taken (R115). DESIGN CHOICE, log 7. -/
  draws : Nat
  /-- THE MODEL'S OWN: the parameters of this machine (R8), taken as an argument by whatever builds the state and fixed
  from then on: no instruction, step or action of the host writes them (R18). DESIGN CHOICE, log 20. -/
  params : Config
  deriving DecidableEq, Repr

/-- Why a step of the model could stop the machine without a next state. There is no such reason on this core, so
no constructor: every fatal condition of the spec is latched in `FAULT`, which is a next state (R13, R33, R78). Safe:
nothing raises it. Log 9. -/
inductive Fault
  deriving DecidableEq, Repr

/-- Why the model could give an instruction no meaning. -/
inductive Refusal where
  /-- Raised by an arm of `exec` whose instruction has no meaning yet; no arm is left so. Safe: the model stops where
  the hardware goes on. -/
  | notModelled (mnemonic : String)
  deriving DecidableEq, Repr

/-- What a meaning and a step answer. -/
abbrev Answer := Host.Outcome State Fault Refusal

/-- The state after `initialize` (R151) of a machine with the default parameters: memory holds its reset contents, so
nothing is listed. `State.initial` (HostOps.lean) is the same for any parameters. -/
def State.reset : State where
  mem := []
  v := Vector.replicate 16 0x00
  i := 0x0000
  pc := 0x0200
  stack := Vector.replicate 16 0x0000
  sp := 0
  dt := 0x00
  st := 0x00
  fb := FrameBuffer.blank
  keys := Vector.replicate 16 false
  fault := ⟨.noFault, 0⟩
  out := Outputs.clear
  draws := 0
  params := config

end Sys2Proof.Machine
end

