-- ==== Sys2Proof/Machine/Ops.lean ====
section
/-! DEFINITION. The named operations over the state that the meanings share: registers, program counter, memory,
stack, frame buffer, key latches, taking a fault, fetch and the timer tick. -/

namespace Sys2Proof.Machine

/-! ### Faults (00_scope.md R13, 60_exceptions.md) -/

/-- The code of a cause (R134). -/
def Cause.code : Cause → Nat
  | .noFault => 0
  | .fetchOob => 1
  | .memOob => 2
  | .stackOverflow => 3
  | .stackUnderflow => 4
  | .keyRange => 5
  | .reservedWrite => 6

/-- `FAULT.cause ≠ NONE` (R138). -/
def State.faulted (s : State) : Bool := decide (s.fault.cause ≠ .noFault)

/-- `raise Fault(cause, info)` taken from the state before the step (R13, R135): `FAULT` is latched, the outputs are
0 (R137), and nothing else changes. There is no return from it: only `initialize` clears `FAULT` (R138, R143). -/
def State.raiseFault (s : State) (f : FaultStatus) : State := { s with fault := f, out := Outputs.clear }

/-- The answer of a meaning whose effect on `s` either completes or raises a fault; a fault discards every write,
so it is taken from `s` itself (R13, D6). -/
def completeOrRaise (s : State) : Except FaultStatus State → Answer
  | .ok t => .next t
  | .error f => .next (s.raiseFault f)

/-! ### Registers (10_state.md R19 to R27) -/

/-- `V[x]`. -/
def State.getV (s : State) (x : Reg) : Byte := s.v.get x

/-- `V[x] <- b`. -/
def State.setV (s : State) (x : Reg) (b : Byte) : State := { s with v := s.v.set x.val b x.isLt }

/-- VF, always register 15 (R20). -/
def regF : Reg := 15

/-- `V[x] <- b`, then `V[0xF] <- flag`: the flag is the last register write, so VF as destination holds the flag
(R22). -/
def State.setVF (s : State) (x : Reg) (b flag : Byte) : State := (s.setV x b).setV regF flag

/-- `I <- n`, keeping `trunc_16` of it (R27). -/
def State.setI (s : State) (n : Nat) : State := { s with i := BitVec.ofNat 16 n }

/-- `PC <- a` (R24, R26): held as computed, checked at the next fetch. -/
def State.jumpTo (s : State) (a : Word) : State := { s with pc := a }

/-- `PC <- PC + 2` (R14). -/
def State.advance (s : State) : State := s.jumpTo (s.pc + 2)

/-- `PC <- PC + 4` if the condition holds, else `PC <- PC + 2` (R98). -/
def State.skipIf (s : State) (cond : Bool) : State := if cond then s.jumpTo (s.pc + 4) else s.advance

/-! ### Memory (00_scope.md R12) -/

/-- `MemRead(a, 1)`. -/
def memRead (a : Nat) (s : State) : Except FaultStatus Byte :=
  if a > 0xFFF then .error ⟨.memOob, a⟩ else .ok (Memory.read s.mem a)

/-- `MemWrite(a, 1, b)`: the bounds check first, then the reserved-range check (R12, R50, R140). -/
def memWrite (c : Config) (a : Nat) (b : Byte) (s : State) : Except FaultStatus State :=
  if a > 0xFFF then .error ⟨.memOob, a⟩
  else if a < programBase ∧ c.reservedWriteFault = true then .error ⟨.reservedWrite, a⟩
  else .ok { s with mem := Memory.write s.mem a b }

/-- `MemRead` at `n` ascending addresses from `a`: the bytes, or the first fault. -/
def readBytes : Nat → Nat → State → Except FaultStatus (List Byte)
  | _, 0, _ => .ok []
  | a, n + 1, s =>
    match memRead a s with
    | .error f => .error f
    | .ok b => (readBytes (a + 1) n s).map (b :: ·)

/-- `MemWrite` of the listed bytes at ascending addresses from `a`, stopping at the first fault. -/
def writeBytes (c : Config) : Nat → List Byte → State → Except FaultStatus State
  | _, [], s => .ok s
  | a, b :: bs, s =>
    match memWrite c a b s with
    | .error f => .error f
    | .ok t => writeBytes c (a + 1) bs t

/-- `V[k] <- b` for the listed bytes, ascending `k`. -/
def State.setVsFrom (s : State) : Nat → List Byte → State
  | _, [] => s
  | k, b :: bs => State.setVsFrom (s.setV (Fin.ofNat 16 k) b) (k + 1) bs

/-! ### Call stack (10_state.md R28, R29) -/

/-- Push: write `STACK[SP]`, then increment `SP`; `STACK_OVERFLOW` when 16 entries are in use (R96). -/
def State.push (s : State) (a : Word) : Except FaultStatus State :=
  if h : s.sp.val < 16 then
    .ok { s with stack := s.stack.set s.sp.val a h, sp := ⟨s.sp.val + 1, by omega⟩ }
  else .error ⟨.stackOverflow, 16⟩

/-- Pop: decrement `SP`, then read `STACK[SP]`, which is not cleared; `STACK_UNDERFLOW` when `SP = 0` (R94). -/
def State.pop (s : State) : Except FaultStatus (Word × State) :=
  if h : s.sp.val = 0 then .error ⟨.stackUnderflow, 0⟩
  else .ok (s.stack[s.sp.val - 1]'(by omega), { s with sp := ⟨s.sp.val - 1, by omega⟩ })

/-! ### Frame buffer and key latches (10_state.md R36, R37) -/

/-- `FB[x][y]`. -/
def FrameBuffer.pixel (fb : FrameBuffer) (x : Fin 64) (y : Fin 32) : Bool := (fb.get x).get y

/-- `FB[x][y] <- FB[x][y] ^ 1`. -/
def FrameBuffer.toggle (fb : FrameBuffer) (x : Fin 64) (y : Fin 32) : FrameBuffer :=
  fb.set x.val ((fb.get x).set y.val (!(fb.pixel x y)) y.isLt) x.isLt

/-- `KEY[k] == 1`. -/
def State.keyPressed (s : State) (k : Reg) : Bool := s.keys.get k

/-- `min { k | KEY[k] == 1 }`, if any latch is set (R129). -/
def State.lowestKey (s : State) : Option Reg := (List.finRange 16).find? s.keyPressed

/-- `blocked <- 1`: the stall of `FX0A` (R129). -/
def State.block (s : State) : State := { s with out := { s.out with blocked := true } }

/-! ### The parts of a step (40_cycle.md) -/

/-- `blocked <- 0; tone <- 0` (R77). -/
def State.clearOutputs (s : State) : State := { s with out := Outputs.clear }

/-- Fetch: the big-endian word at `PC`, or `FETCH_OOB` (R79). -/
def fetch (s : State) : Except FaultStatus Word :=
  if s.pc.toNat > 0xFFE then .error ⟨.fetchOob, s.pc.toNat⟩
  else .ok (wordOfBytes (Memory.read s.mem s.pc.toNat) (Memory.read s.mem (s.pc.toNat + 1)))

/-- One decrement of a timer, never below 0 (R84). -/
def timerDown (t : Byte) : Byte := if t = 0 then 0 else t - 1

/-- The timer tick (R84, R87, R88). -/
def tick (s : State) : State :=
  { s with
    dt := timerDown s.dt
    st := timerDown s.st
    out := { s.out with tone := s.out.tone || decide (s.st = 1) } }

/-- What a step does after execute (R77): nothing when the instruction faulted (R89), nothing on a stall when
`TICK_DURING_STALL` is false (R86), else the tick. -/
def finishStep (c : Config) (s : State) : State :=
  if s.faulted then s
  else if s.out.blocked && !c.tickDuringStall then s
  else tick s

/-- What a step makes of the answer of execute. -/
def afterExecute (c : Config) : Answer → Answer
  | .next t => .next (finishStep c t)
  | .fault r => .fault r
  | .refused r => .refused r

end Sys2Proof.Machine
end

