-- ==== Sys2Proof/Machine/Flags.lean ====
section
/-! DEFINITION. The values VF takes as a flag (10_state.md R23), one function for each rule. -/

namespace Sys2Proof.Machine

/-- Carry of an 8-bit sum: 1 iff `a + b > 0xFF` (R108). -/
def carryFlag (a b : Byte) : Byte := flagByte (decide (a.toNat + b.toNat > 0xFF))

/-- The flag of `a - b`, by `SUB_VF_POLARITY` (R109, R111). -/
def subFlag (c : Config) (a b : Byte) : Byte :=
  match c.subVfPolarity with
  | .noBorrow => flagByte (decide (a.toNat ≥ b.toNat))
  | .borrow => flagByte (decide (a.toNat < b.toNat))

/-- The bit a right shift by one shifts out: bit 0 (R110). -/
def shiftedOutRight (a : Byte) : Byte := flagByte (a.getLsbD 0)

/-- The bit a left shift by one shifts out: bit 7 (R112). -/
def shiftedOutLeft (a : Byte) : Byte := flagByte (a.getLsbD 7)

/-- 1 iff the untruncated index sum passes 0xFFF (R117, D24). -/
def indexFlag (sum : Nat) : Byte := flagByte (decide (sum > 0xFFF))

/-- VF after a draw, by `DRAW_VF_CLEAR` (R125): `old` is kept only when nothing was hit and the parameter is false. -/
def drawFlag (c : Config) (hit : Bool) (old : Byte) : Byte :=
  if hit then 1 else if c.drawVfClear then 0 else old

end Sys2Proof.Machine
end

