-- ==== Sys2Proof/Machine/Arithmetic.lean ====
section
/-! DEFINITION. The register and arithmetic instructions (42_register_arithmetic.md). Operands are read before any
write; a flag write to VF is the last register write (10_state.md R22). -/

namespace Sys2Proof.Machine

/-- `6XNN` (R102). -/
def execLdByte (x : Reg) (nn : Byte) (s : State) : Answer := .next (s.setV x nn).advance

/-- `7XNN` (R103): 8-bit wraparound, VF not written as a flag. -/
def execAddByte (x : Reg) (nn : Byte) (s : State) : Answer := .next (s.setV x (s.getV x + nn)).advance

/-- `8XY0` (R104). -/
def execLdReg (x y : Reg) (s : State) : Answer := .next (s.setV x (s.getV y)).advance

/-- `8XY1` (R105): VF is not written. -/
def execOrReg (x y : Reg) (s : State) : Answer := .next (s.setV x (s.getV x ||| s.getV y)).advance

/-- `8XY2` (R106): VF is not written. -/
def execAndReg (x y : Reg) (s : State) : Answer := .next (s.setV x (s.getV x &&& s.getV y)).advance

/-- `8XY3` (R107): VF is not written. -/
def execXorReg (x y : Reg) (s : State) : Answer := .next (s.setV x (s.getV x ^^^ s.getV y)).advance

/-- `8XY4` (R108): sum modulo 256, then VF = carry. -/
def execAddReg (x y : Reg) (s : State) : Answer :=
  .next (s.setVF x (s.getV x + s.getV y) (carryFlag (s.getV x) (s.getV y))).advance

/-- `V[x] <- trunc_8(a + 256 - b)`, then VF by `SUB_VF_POLARITY`, then `PC + 2`: what `8XY5` and `8XY7` share
(R109, R111). -/
def subtractInto (c : Config) (x : Reg) (a b : Byte) (s : State) : State :=
  (s.setVF x (a - b) (subFlag c a b)).advance

/-- `8XY5` (R109): VX - VY. -/
def execSubReg (x y : Reg) (s : State) : Answer := .next (subtractInto s.params x (s.getV x) (s.getV y) s)

/-- `8XY6` (R110): VX right by one, then VF = old bit 0. -/
def execShr (x : Reg) (s : State) : Answer :=
  .next (s.setVF x (s.getV x >>> 1) (shiftedOutRight (s.getV x))).advance

/-- `8XY7` (R111): VY - VX, the same polarity as `8XY5`. -/
def execSubnReg (x y : Reg) (s : State) : Answer := .next (subtractInto s.params x (s.getV y) (s.getV x) s)

/-- `8XYE` (R112): VX left by one, then VF = old bit 7. -/
def execShl (x : Reg) (s : State) : Answer :=
  .next (s.setVF x (s.getV x <<< 1) (shiftedOutLeft (s.getV x))).advance

/-- `CXNN` (R114): one draw, masked by `NN`. The drawn byte is the free value `Config.rnd`, taken afresh by advancing
`draws` (R115; logs 6 and 7). -/
def execRnd (x : Reg) (nn : Byte) (s : State) : Answer :=
  .next { s.setV x (Config.rnd s.draws &&& nn) with draws := s.draws + 1 }.advance

end Sys2Proof.Machine
end

