-- ==== Sys2Proof/Machine/Operands.lean ====
section
/-! DEFINITION. The operand forms of the instructions: zero-extended immediates, register lists, key indexes,
decimal digits, glyph addresses and sprite coordinates. -/

namespace Sys2Proof.Machine

/-- `zext_16(NNN)` (30_encoding.md R64). -/
def addr16 (nnn : Addr12) : Word := nnn.setWidth 16

/-- `V0..VX` inclusive, in ascending order (43_memory_index.md R120). -/
def State.regsUpTo (s : State) (x : Reg) : List Byte :=
  (List.range (x.val + 1)).map fun k => s.getV (Fin.ofNat 16 k)

/-- A key index: `KEY_RANGE` above 15 (45_input_timers.md R127, D16). -/
def keyIndex (k : Byte) : Except FaultStatus Reg :=
  if h : k.toNat < 16 then .ok ⟨k.toNat, h⟩ else .error ⟨.keyRange, k.toNat⟩

/-- The hundreds, tens and ones of a byte (43_memory_index.md R119). -/
def bcdDigits (b : Byte) : List Byte :=
  [BitVec.ofNat 8 (b.toNat / 100), BitVec.ofNat 8 (b.toNat / 10 % 10), BitVec.ofNat 8 (b.toNat % 10)]

/-- The address of the glyph of digit `b`, `b * 5` for every `b` (43_memory_index.md R118, D23). -/
def glyphAddress (b : Byte) : Nat := b.toNat * 5

/-- A column of the frame buffer, wrapped modulo 64 (44_display.md R124). -/
def wrapX (n : Nat) : Fin 64 := Fin.ofNat 64 n

/-- A row of the frame buffer, wrapped modulo 32 (44_display.md R124). -/
def wrapY (n : Nat) : Fin 32 := Fin.ofNat 32 n

end Sys2Proof.Machine
end

