-- ==== Sys2Proof/Machine/ControlFlow.lean ====
section
/-! DEFINITION. The control-flow and group-0 instructions (41_control_flow.md) and the unrecognized no-op. -/

namespace Sys2Proof.Machine

/-- An unrecognized word: a no-op (40_cycle.md R90). -/
def execUnrecognized (s : State) : Answer := .next s.advance

/-- `0NNN` (R92): a no-op; `NNN` is unused. -/
def execSys (_nnn : Addr12) (s : State) : Answer := .next s.advance

/-- `00E0` (R93): every pixel to 0. -/
def execCls (s : State) : Answer := .next { s with fb := FrameBuffer.blank }.advance

/-- `00EE` (R94): pop, and `PC` is the popped address with nothing added. -/
def execRet (s : State) : Answer := completeOrRaise s (s.pop.map fun p => p.2.jumpTo p.1)

/-- `1NNN` (R95). -/
def execJp (nnn : Addr12) (s : State) : Answer := .next (s.jumpTo (addr16 nnn))

/-- `2NNN` (R96): push `PC + 2`, then jump. -/
def execCall (nnn : Addr12) (s : State) : Answer :=
  completeOrRaise s ((s.push (s.pc + 2)).map fun t => t.jumpTo (addr16 nnn))

/-- `3XNN` (R98). -/
def execSeByte (x : Reg) (nn : Byte) (s : State) : Answer := .next (s.skipIf (s.getV x == nn))

/-- `4XNN` (R99). -/
def execSneByte (x : Reg) (nn : Byte) (s : State) : Answer := .next (s.skipIf (s.getV x != nn))

/-- `5XY0` (R100). -/
def execSeReg (x y : Reg) (s : State) : Answer := .next (s.skipIf (s.getV x == s.getV y))

/-- `9XY0` (R101): its own `PC` write, nothing falls through into another case. -/
def execSneReg (x y : Reg) (s : State) : Answer := .next (s.skipIf (s.getV x != s.getV y))

/-- `BNNN` (R97): `PC <- NNN + V0`, always V0; the sum is at most 0x10FE and is not reduced (D3). -/
def execJpV0 (nnn : Addr12) (s : State) : Answer := .next (s.jumpTo (addr16 nnn + (s.getV 0).setWidth 16))

end Sys2Proof.Machine
end

