-- ==== Sys2Proof/Machine/Display.lean ====
section
/-! DEFINITION. `DXYN` and the sprite XOR-collision datapath (44_display.md). -/

namespace Sys2Proof.Machine

/-- One bit of a sprite row: a set bit toggles its pixel, and a toggle of a lit pixel is a hit. Bit `7 - c` is the
pixel at column offset `c` (R123), coordinates wrap (R124). -/
def drawBit (x0 y : Nat) (row : Byte) (p : FrameBuffer × Bool) (c : Nat) : FrameBuffer × Bool :=
  if row.getLsbD (7 - c) then
    (p.1.toggle (wrapX (x0 + c)) (wrapY y), p.2 || p.1.pixel (wrapX (x0 + c)) (wrapY y))
  else p

/-- The eight bits of a sprite row, left to right. -/
def drawRow (x0 y : Nat) (row : Byte) (p : FrameBuffer × Bool) : FrameBuffer × Bool :=
  (List.range 8).foldl (drawBit x0 y row) p

/-- The rows of a sprite, top to bottom, the first at screen row `y`. -/
def drawRows (x0 : Nat) : Nat → List Byte → FrameBuffer × Bool → FrameBuffer × Bool
  | _, [], p => p
  | y, row :: rows, p => drawRows x0 (y + 1) rows (drawRow x0 y row p)

/-- Draw the sprite `rows` at (VX, VY), then write VF by `DRAW_VF_CLEAR` (R122, R125). -/
def drawSprite (c : Config) (x y : Reg) (rows : List Byte) (s : State) : State :=
  let p := drawRows (s.getV x).toNat (s.getV y).toNat rows (s.fb, false)
  { s with fb := p.1 }.setV regF (drawFlag c p.2 (s.getV regF))

/-- `DXYN` (R122): N bytes from `I`; `MEM_OOB` on any of them leaves every pixel and register as it was. -/
def execDrw (x y : Reg) (n : Nibble) (s : State) : Answer :=
  completeOrRaise s ((readBytes s.i.toNat n.toNat s).map fun rows => (drawSprite s.params x y rows s).advance)

end Sys2Proof.Machine
end

