-- ==== Sys2Proof/Machine/IndexMemory.lean ====
section
/-! DEFINITION. The index-register and memory instructions (43_memory_index.md). A fault on any byte leaves every
byte, every register and `I` as they were (00_scope.md R13). -/

namespace Sys2Proof.Machine

/-- `ANNN` (R116). -/
def execLdI (nnn : Addr12) (s : State) : Answer := .next (s.setI nnn.toNat).advance

/-- `FX1E` (R117): `I` keeps 16 bits of the sum, then VF says whether the whole sum passed 0xFFF. -/
def execAddI (x : Reg) (s : State) : Answer :=
  let sum := s.i.toNat + (s.getV x).toNat
  .next ((s.setI sum).setV regF (indexFlag sum)).advance

/-- `FX29` (R118). -/
def execLdF (x : Reg) (s : State) : Answer := .next (s.setI (glyphAddress (s.getV x))).advance

/-- Store bytes from `I` upward, what `FX33` and `FX55` share. -/
def storeAtI (c : Config) (bytes : List Byte) (s : State) : Except FaultStatus State := writeBytes c s.i.toNat bytes s

/-- `FX33` (R119): the decimal digits at I, I + 1, I + 2; `I` is unchanged. -/
def execLdB (x : Reg) (s : State) : Answer :=
  completeOrRaise s ((storeAtI s.params (bcdDigits (s.getV x)) s).map State.advance)

/-- `FX55` (R120): V0..VX from `I` upward, then `I <- trunc_16(I + X + 1)`. -/
def execStoreRegs (x : Reg) (s : State) : Answer :=
  completeOrRaise s ((storeAtI s.params (s.regsUpTo x) s).map fun t => (t.setI (s.i.toNat + x.val + 1)).advance)

/-- `FX65` (R121): V0..VX from memory at `I` upward, then `I <- trunc_16(I + X + 1)`. -/
def execLoadRegs (x : Reg) (s : State) : Answer :=
  completeOrRaise s ((readBytes s.i.toNat (x.val + 1) s).map fun bytes =>
    ((s.setVsFrom 0 bytes).setI (s.i.toNat + x.val + 1)).advance)

end Sys2Proof.Machine
end

