-- ==== Sys2Proof/Machine/InputTimers.lean ====
section
/-! DEFINITION. The input and timer instructions (45_input_timers.md). -/

namespace Sys2Proof.Machine

/-- `EX9E` (R127). -/
def execSkp (x : Reg) (s : State) : Answer :=
  completeOrRaise s ((keyIndex (s.getV x)).map fun k => s.skipIf (s.keyPressed k))

/-- `EXA1` (R128). -/
def execSknp (x : Reg) (s : State) : Answer :=
  completeOrRaise s ((keyIndex (s.getV x)).map fun k => s.skipIf (!s.keyPressed k))

/-- `FX07` (R130): DT as it stands before this step's tick. -/
def execLdVxDt (x : Reg) (s : State) : Answer := .next (s.setV x s.dt).advance

/-- `FX0A` (R129): the lowest pressed key, or a stall with `PC` unchanged. -/
def execLdVxK (x : Reg) (s : State) : Answer :=
  match s.lowestKey with
  | some k => .next (s.setV x (BitVec.ofNat 8 k.val)).advance
  | none => .next s.block

/-- `FX15` (R131). -/
def execLdDtVx (x : Reg) (s : State) : Answer := .next { s with dt := s.getV x }.advance

/-- `FX18` (R132). -/
def execLdStVx (x : Reg) (s : State) : Answer := .next { s with st := s.getV x }.advance

end Sys2Proof.Machine
end

