-- ==== Sys2Proof/Machine/Step.lean ====
section
/-! DEFINITION. The step of the core (40_cycle.md R77): fetch, decode, execute, timer tick. -/

namespace Sys2Proof.Machine

/-- One `step()` (R77): a faulted core only reports (R78); a fetch out of bounds faults (R79); an unrecognized word
is a no-op (R90); any other word is executed; then the timers tick (R84). The `rnd` input is the free value
`Config.rnd`, the key latches are part of the state, and the outputs are left in `out`. -/
def step (s : State) : Host.Outcome State Fault Refusal :=
  let s := s.clearOutputs
  if s.faulted then .next s
  else
    match fetch s with
    | .error f => .next (s.raiseFault f)
    | .ok w =>
      match decode w with
      | .ok i => afterExecute s.params (exec i s)
      | .error _ => afterExecute s.params (execUnrecognized s)

/-- `s` with the instruction whose bits are `w` stored where `step` fetches next: its two bytes at `PC`, the high
byte at the lower address (R45). It stands for a `load_program` of that word (log 13). Where nothing can be fetched
(`PC > 0xFFE`, R79) there is no place to store it and `s` is left as it is. -/
def State.withFetchWord (s : State) (nbits w : Nat) : State :=
  if s.pc.toNat > 0xFFE then s
  else { s with mem := Memory.writeList s.mem s.pc.toNat (tableWordBytes nbits w) }

end Sys2Proof.Machine
end

