-- ==== Sys2Proof/Machine/HostOps.lean ====
section
/-! DEFINITION. What the host does to the core between steps (00_scope.md R6, 70_reset_and_hazards.md R151 to R156):
`initialize`, `load_program`, setting the key latches, and calling `step`. -/

namespace Sys2Proof.Machine

/-- The state after `initialize` (R151) of a machine with the parameters `c`: memory is zeroed, then `FONT` copied to
0x000. -/
def State.initial (c : Config) : State :=
  { State.reset with mem := Memory.writeList [] 0 c.font.toList, params := c }

/-- `initialize` (R151): the state after reset, from any state, a faulted one too (D28). The parameters of the machine
stay, and the count of `rnd` draws goes on, so that the draws after it are fresh ones (R115; log 7). -/
def State.restart (s : State) : State := { State.initial s.params with draws := s.draws }

/-- `MAX_PROGRAM`, the largest image (R8, R155). -/
def maxProgram : Nat := 0x1000 - 0x200

/-- What `load_program` returns (R154, R155). -/
inductive LoadResult where
  | loaded
  | tooLarge
  deriving DecidableEq, Repr

/-- `load_program(bytes)` (R154): the image from 0x200, or `LOAD_TOO_LARGE` and no byte written (R155). It is not
subject to `RESERVED_WRITE` and leaves `FAULT` as it is (R139). -/
def State.loadProgram (s : State) (bytes : List Byte) : LoadResult × State :=
  if bytes.length > maxProgram then (.tooLarge, s)
  else (.loaded, { s with mem := Memory.writeList s.mem programBase bytes })

/-- The host sets all key latches (R37, R162). -/
def State.setKeys (s : State) (keys : Vector Bool 16) : State := { s with keys := keys }

/-- What the host can do to the core (R6, R156). It does nothing during a step (R163). -/
inductive HostAction where
  /-- Call `initialize`. -/
  | restart
  /-- Call `load_program`. -/
  | load (bytes : List Byte)
  /-- Set the key latches. -/
  | keys (latches : Vector Bool 16)
  /-- Call `step`. -/
  | step
  deriving DecidableEq, Repr

/-- One action of the host. -/
def performAction (a : HostAction) (s : State) : Answer :=
  match a with
  | .restart => .next s.restart
  | .load bytes => .next (s.loadProgram bytes).2
  | .keys latches => .next (s.setKeys latches)
  | .step => Sys2Proof.Machine.step s

/-- A sequence of actions of the host, in any order it likes (R156). -/
def performAll : List HostAction → State → Answer
  | [], s => .next s
  | a :: as, s =>
    match performAction a s with
    | .next t => performAll as t
    | .fault r => .fault r
    | .refused r => .refused r

end Sys2Proof.Machine
end

