-- ==== Sys2Proof/Safety.lean ====
section
/-! DEFINITION. The terms claims are stated in: running and faulted states, the invariant of the machine, and the
pixels a sprite covers. -/

namespace Sys2Proof.Machine

/-- The core has not faulted: a run goes on normally (70_reset_and_hazards.md R157). -/
def State.running (s : State) : Prop := s.fault.cause = .noFault

/-- `info` is what R134 records beside the cause. -/
def FaultStatus.legal (f : FaultStatus) : Prop :=
  match f.cause with
  | .noFault => f.info = 0
  | .fetchOob => 0xFFE < f.info ∧ f.info ≤ 0x10FE
  | .memOob => 0xFFF < f.info ∧ f.info ≤ 0xFFFF
  | .stackOverflow => f.info = 16
  | .stackUnderflow => f.info = 0
  | .keyRange => 0xF < f.info ∧ f.info ≤ 0xFF
  | .reservedWrite => f.info < 0x200

/-- What every step and every action of the host keeps. -/
structure State.Inv (s : State) : Prop where
  /-- Memory is in its canonical form, so no address outside 0x000 to 0xFFF is listed (R41). -/
  memory_canonical : Memory.wf s.mem = true
  /-- `PC` never wraps: no value above 0x10FE is ever written to it (R26). -/
  pc_bounded : s.pc.toNat ≤ 0x10FE
  /-- Every stack entry is a return address, at most 0x1000 (R96, D4). -/
  stack_bounded : ∀ k : Fin 16, (s.stack.get k).toNat ≤ 0x1000
  /-- `FONT` and the rest of the reserved range keep their reset contents (R43, R50; C9). -/
  reserved_intact : s.params.reservedWriteFault = true →
    ∀ a, a < programBase → Memory.read s.mem a = resetByte s.params a
  /-- `FAULT` holds one of the pairs of R134. -/
  fault_legal : s.fault.legal

/-- The sprite of `DXYN` sets a bit at pixel (px, py): the pixel is c < 8 columns right of and r < N rows below
(VX, VY), wrapping, and bit 7 - c of the byte at I + r is 1 (44_display.md R122 to R124). -/
def spriteBit (s : State) (x y : Reg) (n : Nibble) (px : Fin 64) (py : Fin 32) : Bool :=
  let c := (px.val + 64 - (s.getV x).toNat % 64) % 64
  let r := (py.val + 32 - (s.getV y).toNat % 32) % 32
  decide (c < 8) && decide (r < n.toNat) && (Memory.read s.mem (s.i.toNat + r)).getLsbD (7 - c)

/-- Some set bit of the sprite lands on a lit pixel (44_display.md R125). -/
def spriteHits (s : State) (x y : Reg) (n : Nibble) : Prop :=
  ∃ px py, s.fb.pixel px py = true ∧ spriteBit s x y n px py = true

/-! ### When a step faults (60_exceptions.md R134) -/

/-- The word at `PC` (R79). -/
def State.nextWord (s : State) : Word :=
  wordOfBytes (Memory.read s.mem s.pc.toNat) (Memory.read s.mem (s.pc.toNat + 1))

/-- The fault of an access to `n` bytes at `I`: `MEM_OOB` with the first address above 0xFFF (R119 to R122). -/
def accessFault (s : State) (n : Nat) : Option FaultStatus :=
  if 0 < n ∧ 0x1000 < s.i.toNat + n then some ⟨.memOob, max s.i.toNat 0x1000⟩ else none

/-- The fault of a store of `n` bytes at `I`: `RESERVED_WRITE` below 0x200 by the parameter, else that of an access
(R119, R120). -/
def storeFault (s : State) (n : Nat) : Option FaultStatus :=
  if 0 < n ∧ s.i.toNat < 0x200 ∧ s.params.reservedWriteFault = true then some ⟨.reservedWrite, s.i.toNat⟩
  else accessFault s n

/-- The fault of a key skip (R127, R128). -/
def keyFault (s : State) (x : Reg) : Option FaultStatus :=
  if 15 < (s.getV x).toNat then some ⟨.keyRange, (s.getV x).toNat⟩ else none

/-- The fault an instruction raises in a state, by R134; no other instruction faults. -/
def instrFault (s : State) : Instr → Option FaultStatus
  | .ret => if s.sp = 0 then some ⟨.stackUnderflow, 0⟩ else none
  | .call _ => if s.sp = 16 then some ⟨.stackOverflow, 16⟩ else none
  | .skp x | .sknp x => keyFault s x
  | .drw _ _ n => accessFault s n.toNat
  | .loadRegs x => accessFault s (x.val + 1)
  | .ldB _ => storeFault s 3
  | .storeRegs x => storeFault s (x.val + 1)
  | .sys _ | .cls | .jp _ | .seByte _ _ | .sneByte _ _ | .seReg _ _ | .ldByte _ _ | .addByte _ _ | .ldReg _ _
  | .orReg _ _ | .andReg _ _ | .xorReg _ _ | .addReg _ _ | .subReg _ _ | .shr _ | .subnReg _ _ | .shl _
  | .sneReg _ _ | .ldI _ | .jpV0 _ | .rnd _ _ | .ldVxDt _ | .ldVxK _ | .ldDtVx _ | .ldStVx _ | .addI _
  | .ldF _ => none

/-- The fault the step of a running core raises, by R134 and in the order of R140. -/
def stepFault (s : State) : Option FaultStatus :=
  if 0xFFE < s.pc.toNat then some ⟨.fetchOob, s.pc.toNat⟩
  else
    match decode s.nextWord with
    | .ok i => instrFault s i
    | .error _ => none

/-! ### What an instruction writes (10_state.md R21, R23) -/

/-- `i` may write register `r`, as a destination (R21) or as the flag (R23). -/
def registerWrites : Instr → Reg → Bool
  | .ldByte x _, r | .addByte x _, r | .ldReg x _, r | .orReg x _, r | .andReg x _, r | .xorReg x _, r | .rnd x _, r
  | .ldVxDt x, r | .ldVxK x, r => r == x
  | .addReg x _, r | .subReg x _, r | .subnReg x _, r | .shr x, r | .shl x, r => r == x || r == regF
  | .drw _ _ _, r | .addI _, r => r == regF
  | .loadRegs x, r => decide (r.val ≤ x.val)
  | .sys _, _ | .cls, _ | .ret, _ | .jp _, _ | .call _, _ | .seByte _ _, _ | .sneByte _ _, _ | .seReg _ _, _
  | .sneReg _ _, _ | .ldI _, _ | .jpV0 _, _ | .skp _, _ | .sknp _, _ | .ldDtVx _, _ | .ldStVx _, _ | .ldF _, _
  | .ldB _, _ | .storeRegs _, _ => false

end Sys2Proof.Machine
end

