-- ==== Sys2Proof/Certificates/Slice0/Obligations.lean ====
section
/-! DEFINITION. The statements for the provers. Each docstring names the rule or section of spec/ it formalises, and
the spec's own decision (D<n>) or the log entry its content rests on. `t = { s with v := t.v, pc := t.pc }` says that
everything but the named fields is as it was, memory among it. -/

open Sys2Proof Sys2Proof.Machine

/-! ### The step (40_cycle.md) -/

/-- 40_cycle.md section 1: where the bytes at `PC` decode to `i`, the step of a running core is `exec i` on the state
with its outputs cleared, then no tick after a fault, none on a stall when `TICK_DURING_STALL` is false, else the
tick. -/
def Obligations.StepRunsDecodedInstruction : Prop :=
  ∀ (s t : State) (i : Instr), s.running → s.pc.toNat ≤ 0xFFE → decode s.nextWord = .ok i →
    exec i { s with out := ⟨false, false⟩ } = .next t →
    step s = .next (if t.fault.cause ≠ .noFault then t
      else if t.out.blocked = true ∧ s.params.tickDuringStall = false then t else tick t)

/-- R90: an unrecognized word is a no-op: `PC + 2` and the tick, nothing else. -/
def Obligations.UnrecognizedWordIsNoOp : Prop :=
  ∀ (s : State) (e : Unrecognized), s.running → s.pc.toNat ≤ 0xFFE → decode s.nextWord = .error e →
    step s = .next { s with
      pc := s.pc + 2
      dt := if s.dt = 0 then 0 else s.dt - 1
      st := if s.st = 0 then 0 else s.st - 1
      out := ⟨false, decide (s.st = 1)⟩ }

/-- R78 (decision D30): a step of a faulted core changes no state and reports `FAULT`, with `blocked` and `tone` 0. -/
def Obligations.FaultedStepOnlyReports : Prop :=
  ∀ s : State, s.fault.cause ≠ .noFault → step s = .next { s with out := ⟨false, false⟩ }

/-- R79: the word is `M[PC]` over `M[PC + 1]`, at any `PC` up to 0xFFE, odd or in the reserved range; above that the
step raises `FETCH_OOB` with `PC`. -/
def Obligations.FetchReadsBigEndianOrFaults : Prop :=
  ∀ s : State,
    (s.pc.toNat ≤ 0xFFE → ∃ w : Word, fetch s = .ok w ∧
      w.toNat = (Memory.read s.mem s.pc.toNat).toNat * 256 + (Memory.read s.mem (s.pc.toNat + 1)).toNat) ∧
    (s.running → 0xFFE < s.pc.toNat →
      step s = .next { s with fault := ⟨.fetchOob, s.pc.toNat⟩, out := ⟨false, false⟩ })

/-- 40_cycle.md section 1, 30_encoding.md section 4: every step of every state answers a next state; no instruction
and no word ends the machine. -/
def Obligations.EveryStepAnswersNextState : Prop := ∀ s : State, ∃ t, step s = .next t

/-- 60_exceptions.md section 1 (decision D30): as long as the host does not call `initialize`, nothing clears a latched
fault, and any number of steps changes nothing but clears the outputs. -/
def Obligations.FaultIsStickyUntilRestart : Prop :=
  ∀ s : State, s.fault.cause ≠ .noFault →
    (∀ as : List HostAction, HostAction.restart ∉ as → ∃ t, performAll as s = .next t ∧ t.fault = s.fault) ∧
    (∀ n : Nat, performAll (List.replicate (n + 1) .step) s = .next { s with out := ⟨false, false⟩ }) ∧
    s.restart.fault = ⟨.noFault, 0⟩

/-- R135 and R137 (decision D6): a step that faults leaves the state before it, except `FAULT`; no timer ticks, and
`blocked` and `tone` are 0. -/
def Obligations.FaultingStepKeepsStateBefore : Prop :=
  ∀ s t : State, s.running → step s = .next t → ¬ t.running →
    t = { s with fault := t.fault, out := ⟨false, false⟩ }

/-- R134 (decisions D5, D8, D16, D17): the step of a running core raises exactly the faults of the table, under its
conditions and with its `info`; no other instruction faults. The codes are the table's. -/
def Obligations.StepsFaultExactlyAsTabulated : Prop :=
  (∀ s : State, s.running → ∃ t, step s = .next t ∧ t.fault = (stepFault s).getD s.fault) ∧
  [Cause.noFault, .fetchOob, .memOob, .stackOverflow, .stackUnderflow, .keyRange, .reservedWrite].map Cause.code =
    [0, 1, 2, 3, 4, 5, 6]

/-- 40_cycle.md section 6 (an inference the spec marks as derived): after a step that completes, `PC` is the old one
plus 2 or 4, the target of a jump, call or return, or, on an `FX0A` stall only, the old one. -/
def Obligations.PcAfterCompletedStep : Prop :=
  ∀ s t : State, s.running → step s = .next t → t.running →
    t.pc = s.pc + 2 ∨ t.pc = s.pc + 4 ∨
    (∃ nnn, (decode s.nextWord = .ok (.jp nnn) ∨ decode s.nextWord = .ok (.call nnn)) ∧ t.pc.toNat = nnn.toNat) ∨
    (∃ nnn, decode s.nextWord = .ok (.jpV0 nnn) ∧ t.pc.toNat = nnn.toNat + (s.getV 0).toNat) ∨
    (decode s.nextWord = .ok .ret ∧ ∃ k : Fin 16, k.val + 1 = s.sp.val ∧ t.pc = s.stack.get k) ∨
    ((∃ x, decode s.nextWord = .ok (.ldVxK x)) ∧ (∀ k, s.keyPressed k = false) ∧ t.pc = s.pc)

/-- R84 and R88, with the parameter of R86: a completed step counts both timers down once, never below 0, after the
instruction's own write to them, and `tone` is 1 exactly when the tick took `ST` from 1 to 0; a stall step ticks by
`TICK_DURING_STALL`. The outputs stand in the model's field `out` (log 8). -/
def Obligations.CompletedStepTicksTimersOnce : Prop :=
  ∀ (s t : State), s.running → step s = .next t → t.running →
    ∀ dt st : Byte,
      dt = (match decode s.nextWord with | .ok (.ldDtVx x) => s.getV x | _ => s.dt) →
      st = (match decode s.nextWord with | .ok (.ldStVx x) => s.getV x | _ => s.st) →
      if t.out.blocked = true ∧ s.params.tickDuringStall = false then t.dt = dt ∧ t.st = st ∧ t.out.tone = false
      else t.dt.toNat = dt.toNat - 1 ∧ t.st.toNat = st.toNat - 1 ∧ (t.out.tone = true ↔ st = 1)

/-- R83: `blocked` is 1 exactly when the step of a running core executed `FX0A` with no latch set; `tone` is 1 exactly
when the tick took `ST`, as the instruction left it, from 1 to 0; the `fault` output, `FAULT` as the step leaves it, is
none for a step that completes, and else the fault status. The outputs stand in the model's field `out` (log 8). -/
def Obligations.OutputsOfStep : Prop :=
  ∀ s t : State, step s = .next t →
    (t.out.blocked = true ↔
      s.running ∧ s.pc.toNat ≤ 0xFFE ∧ (∃ x, decode s.nextWord = .ok (.ldVxK x)) ∧ ∀ k, s.keyPressed k = false) ∧
    (t.out.tone = true ↔ s.running ∧ t.running ∧ ¬ (t.out.blocked = true ∧ s.params.tickDuringStall = false) ∧
      (match decode s.nextWord with | .ok (.ldStVx x) => s.getV x | _ => s.st) = 1) ∧
    (s.running → (t.running ↔ stepFault s = none)) ∧
    (¬ s.running → t.fault = s.fault)

/-- R87: along any steps that complete, tick, and do not execute `FX15`, the delay timer after `k` of them is
`max(d - k, 0)`, whatever latches the host sets and whatever image it loads before each step (R37, R154, R156). -/
def Obligations.DelayTimerCountsDown : Prop :=
  ∀ (σ : Nat → State) (latches : Nat → Vector Bool 16) (image : Nat → List Byte) (k : Nat),
    (∀ j < k, ∀ u : State, u = ((σ j).loadProgram (image j)).2.setKeys (latches j) →
      u.running ∧ step u = .next (σ (j + 1)) ∧ (σ (j + 1)).running ∧
      ((σ (j + 1)).out.blocked = false ∨ u.params.tickDuringStall = true) ∧
      ∀ x, decode u.nextWord ≠ .ok (.ldDtVx x)) →
    (σ k).dt.toNat = (σ 0).dt.toNat - k

/-- R86 (decision D15): on a stall step the timers tick when `TICK_DURING_STALL` is true and do not when it is false, for
either setting. -/
def Obligations.StallTickFollowsParameter : Prop :=
  ∀ (c : Config) (s : State), s.running → s.out.blocked = true →
    (c.tickDuringStall = true → (finishStep c s).dt.toNat = s.dt.toNat - 1 ∧ (finishStep c s).st.toNat = s.st.toNat - 1) ∧
    (c.tickDuringStall = false → finishStep c s = s)

/-! ### Invariants of the machine -/

/-- 10_state.md sections 4, 6, 8, 9 and 20_memory.md section 2: the step keeps the invariant from every state that has
it: canonical memory inside 0x000 to 0xFFF, `PC` at most 0x10FE, return addresses at most 0x1000, the reserved range and
the font intact, a legal `FAULT`. That the reserved range is intact rests on decision D17 (log 4). -/
def Obligations.StepKeepsInvariant : Prop := ∀ s t : State, s.Inv → step s = .next t → t.Inv

/-- 70_reset_and_hazards.md section 1: the state after `initialize` has the invariant. -/
def Obligations.ResetHasInvariant : Prop := State.reset.Inv

/-- 00_scope.md section 3, 70_reset_and_hazards.md section 3: whatever the host does between steps, in any order, it
gets an answer, the invariant is kept, and the parameters of the machine stay what they were (10_state.md section 1;
that they stand in the model's field `params`: log 20). -/
def Obligations.HostActionsKeepInvariant : Prop :=
  ∀ (as : List HostAction) (s : State), s.Inv → ∃ t, performAll as s = .next t ∧ t.Inv ∧ t.params = s.params

/-- 20_memory.md section 1, 10_state.md section 1: only `FX33` and `FX55` change memory, and only the bytes they store
to. -/
def Obligations.OnlyStoresChangeMemory : Prop :=
  ∀ (i : Instr) (s t : State) (a : Nat), exec i s = .next t → Memory.read t.mem a ≠ Memory.read s.mem a →
    (∃ x, i = .ldB x ∧ s.i.toNat ≤ a ∧ a ≤ s.i.toNat + 2) ∨
    (∃ x : Reg, i = .storeRegs x ∧ s.i.toNat ≤ a ∧ a ≤ s.i.toNat + x.val)

/-- 10_state.md section 1, the "written by" column: each piece of state is written by the instructions named there and
no others, and the parameters by none. The two clauses about the model's own fields are those on the parameters (log 20)
and on the draw counter (log 7). -/
def Obligations.StateWrittenOnlyByNamedInstructions : Prop :=
  ∀ (i : Instr) (s t : State), exec i s = .next t →
    t.keys = s.keys ∧ t.params = s.params ∧
    (t.mem ≠ s.mem → (∃ x, i = .ldB x) ∨ ∃ x, i = .storeRegs x) ∧
    (t.i ≠ s.i → (∃ n, i = .ldI n) ∨ (∃ x, i = .addI x) ∨ (∃ x, i = .ldF x) ∨ (∃ x, i = .storeRegs x) ∨
      ∃ x, i = .loadRegs x) ∧
    (t.stack ≠ s.stack → ∃ n, i = .call n) ∧
    (t.sp ≠ s.sp → (∃ n, i = .call n) ∨ i = .ret) ∧
    (t.dt ≠ s.dt → ∃ x, i = .ldDtVx x) ∧
    (t.st ≠ s.st → ∃ x, i = .ldStVx x) ∧
    (t.fb ≠ s.fb → i = .cls ∨ ∃ x y n, i = .drw x y n) ∧
    (t.draws ≠ s.draws → ∃ x nn, i = .rnd x nn)

/-- 10_state.md sections 2 and 3 (the table the spec marks as derived): an instruction changes no general register but
its destinations and, for a flag-producing instruction, VF. -/
def Obligations.RegistersWrittenOnlyAsTabulated : Prop :=
  ∀ (i : Instr) (s t : State) (r : Reg), exec i s = .next t → registerWrites i r = false → t.getV r = s.getV r

/-- 20_memory.md section 1 (an inference the spec marks as derived): the key latches reach nothing but `EX9E`, `EXA1` and
`FX0A`: any other instruction does the same whatever keys are pressed, `CXNN` for the same draw (log 6: two states with
the same count of draws get the same byte). -/
def Obligations.KeysReadOnlyByKeyInstructions : Prop :=
  ∀ (i : Instr) (s t : State) (latches : Vector Bool 16),
    (∀ x, i ≠ .skp x) → (∀ x, i ≠ .sknp x) → (∀ x, i ≠ .ldVxK x) →
    exec i s = .next t → exec i (s.setKeys latches) = .next (t.setKeys latches)

/-- 10_state.md section 7, 60_exceptions.md section 4: no instruction reads the sound timer: a different `ST` changes the
result in `ST` alone, and not there either after `FX18`, which answers the same state; `CXNN` for the same draw (log 6:
two states with the same count of draws get the same byte). -/
def Obligations.SoundTimerIsNotReadable : Prop :=
  ∀ (i : Instr) (s t : State) (b : Byte), exec i s = .next t →
    ((∀ x, i ≠ .ldStVx x) → exec i { s with st := b } = .next { t with st := b }) ∧
    ((∃ x, i = .ldStVx x) → exec i { s with st := b } = .next t)

/-! ### Encoding (30_encoding.md) -/

/-- 30_encoding.md sections 1 to 3: every well-formed instruction, with every operand, decodes from its word. -/
def Obligations.DecodeOfEncodeIsIdentity : Prop := ∀ i : Instr, i.wellFormed = true → decode (encode i) = .ok i

/-- 30_encoding.md sections 1 to 3 (for the shifts, decision D27): a word that decodes is the word of its instruction,
the ignored `Y` of `8XY6` and `8XYE` written as 0, and the instruction is well-formed. -/
def Obligations.EncodeOfDecodeIsTheWord : Prop :=
  ∀ (w : Word) (i : Instr), decode w = .ok i →
    i.wellFormed = true ∧
    ((∃ x, i = .shr x ∨ i = .shl x) → (encode i).toNat = w.toNat - w.toNat % 256 + w.toNat % 16) ∧
    ((∀ x, i ≠ .shr x) → (∀ x, i ≠ .shl x) → encode i = w)

/-- 30_encoding.md section 4 (an inference the spec marks as derived): the unrecognized words are exactly those. -/
def Obligations.UnrecognizedWordsExactly : Prop :=
  ∀ w : Word, (∃ e, decode w = .error e) ↔
    (w.toNat / 4096 = 5 ∧ w.toNat % 16 ≠ 0) ∨
    (w.toNat / 4096 = 8 ∧ w.toNat % 16 ∈ [0x8, 0x9, 0xA, 0xB, 0xC, 0xD, 0xF]) ∨
    (w.toNat / 4096 = 9 ∧ w.toNat % 16 ≠ 0) ∨
    (w.toNat / 4096 = 0xE ∧ w.toNat % 256 ∉ [0x9E, 0xA1]) ∨
    (w.toNat / 4096 = 0xF ∧ w.toNat % 256 ∉ [0x07, 0x0A, 0x15, 0x18, 0x1E, 0x29, 0x33, 0x55, 0x65])

/-- 30_encoding.md section 7: a word that decodes to an instruction selects that instruction's row of the opcode table,
and `SYS` never takes the two whole words. -/
def Obligations.DecodedWordSelectsItsRow : Prop :=
  ∀ (w : Word) (i : Instr), decode w = .ok i →
    w &&& rowMask i = rowMatch i ∧ ((∃ n, i = .sys n) → w ≠ 0x00E0 ∧ w ≠ 0x00EE)

/-- 30_encoding.md section 3, 95_test_vectors.md: a few words of every family, written out, decode as the spec says. -/
def Obligations.SampleWordsDecode : Prop :=
  decodeTableWord 16 0x0123 = some (.sys 0x123) ∧ decodeTableWord 16 0x00E0 = some .cls ∧
  decodeTableWord 16 0x00EE = some .ret ∧ decodeTableWord 16 0x1ABC = some (.jp 0xABC) ∧
  decodeTableWord 16 0x3005 = some (.seByte 0 0x05) ∧ decodeTableWord 16 0x8125 = some (.subReg 1 2) ∧
  decodeTableWord 16 0x8456 = some (.shr 4) ∧ decodeTableWord 16 0xBF80 = some (.jpV0 0xF80) ∧
  decodeTableWord 16 0xD015 = some (.drw 0 1 5) ∧ decodeTableWord 16 0xE5A1 = some (.sknp 5) ∧
  decodeTableWord 16 0xF255 = some (.storeRegs 2) ∧ decodeTableWord 16 0x8008 = none ∧
  decodeTableWord 16 0x5121 = none ∧ decodeTableWord 16 0xE000 = none

/-! ### Control flow (41_control_flow.md) -/

/-- R92 (decision D22): `0NNN` advances `PC` by 2 and changes nothing else. -/
def Obligations.SysOnlyAdvancesPc : Prop :=
  ∀ (nnn : Addr12) (s : State), exec (.sys nnn) s = .next { s with pc := s.pc + 2 }

/-- R93: `00E0` darkens every pixel, advances `PC` by 2, and changes nothing else; VF is not written. -/
def Obligations.ClsDarkensEveryPixel : Prop :=
  ∀ s : State, ∃ t, exec .cls s = .next t ∧ (∀ x y, t.fb.pixel x y = false) ∧ t.pc = s.pc + 2 ∧
    t = { s with fb := t.fb, pc := t.pc }

/-- R94 (underflow: decision D8): `00EE` pops the entry below `SP` into `PC`, adding nothing and clearing nothing; with
`SP = 0` it raises `STACK_UNDERFLOW`, info 0. -/
def Obligations.RetPopsOrUnderflows : Prop :=
  ∀ s : State,
    (∀ k : Fin 16, k.val + 1 = s.sp.val → ∃ t, exec .ret s = .next t ∧
      t.pc = s.stack.get k ∧ t.sp.val = k.val ∧ t = { s with pc := t.pc, sp := t.sp }) ∧
    (s.sp = 0 → exec .ret s = .next (s.raiseFault ⟨.stackUnderflow, 0⟩))

/-- R96: `2NNN` writes `PC + 2` to the entry at `SP`, increments `SP` and jumps to NNN; with `SP = 16` it raises
`STACK_OVERFLOW`, info 16. -/
def Obligations.CallPushesAndJumps : Prop :=
  ∀ (nnn : Addr12) (s : State),
    (s.sp ≠ 16 → ∃ t, exec (.call nnn) s = .next t ∧
      (∀ k : Fin 16, t.stack.get k = if k.val = s.sp.val then s.pc + 2 else s.stack.get k) ∧
      t.sp.val = s.sp.val + 1 ∧ t.pc.toNat = nnn.toNat ∧ t = { s with stack := t.stack, sp := t.sp, pc := t.pc }) ∧
    (s.sp = 16 → exec (.call nnn) s = .next (s.raiseFault ⟨.stackOverflow, 16⟩))

/-- 41_control_flow.md, the call and return round trip: a return from any state that holds the stack a call left goes to
the instruction after the call and restores `SP`. -/
def Obligations.CallThenReturnResumes : Prop :=
  ∀ (nnn : Addr12) (s t u : State), s.sp ≠ 16 → exec (.call nnn) s = .next t → u.stack = t.stack → u.sp = t.sp →
    ∃ r, exec .ret u = .next r ∧ r.pc = s.pc + 2 ∧ r.sp = s.sp

/-- R95 and R97 (no wrap: decision D3): `1NNN` sets `PC` to NNN and `BNNN` to NNN + V0, whatever register the word's X
field would name; neither changes anything else. -/
def Obligations.JumpsSetPc : Prop :=
  ∀ (nnn : Addr12) (s : State),
    (∃ t, exec (.jp nnn) s = .next t ∧ t.pc.toNat = nnn.toNat ∧ t = { s with pc := t.pc }) ∧
    (∃ t, exec (.jpV0 nnn) s = .next t ∧ t.pc.toNat = nnn.toNat + (s.getV 0).toNat ∧ t = { s with pc := t.pc })

/-- R98 and R99: `3XNN` skips when VX equals NN and `4XNN` when it differs: `PC + 4`, else `PC + 2`, and nothing
else. -/
def Obligations.ImmediateSkips : Prop :=
  ∀ (x : Reg) (nn : Byte) (s : State),
    exec (.seByte x nn) s = .next { s with pc := if s.getV x = nn then s.pc + 4 else s.pc + 2 } ∧
    exec (.sneByte x nn) s = .next { s with pc := if s.getV x = nn then s.pc + 2 else s.pc + 4 }

/-- R100 and R101: `5XY0` skips when VX equals VY and `9XY0` when they differ: `PC + 4`, else `PC + 2`, and nothing else
(no other case's effect happens). -/
def Obligations.RegisterSkips : Prop :=
  ∀ (x y : Reg) (s : State),
    exec (.seReg x y) s = .next { s with pc := if s.getV x = s.getV y then s.pc + 4 else s.pc + 2 } ∧
    exec (.sneReg x y) s = .next { s with pc := if s.getV x = s.getV y then s.pc + 2 else s.pc + 4 }

/-! ### Registers and arithmetic (42_register_arithmetic.md) -/

/-- R102 and R103: `6XNN` sets VX to NN, `7XNN` adds NN to VX modulo 256; no other register changes, so VF is written
only as destination; `PC + 2`, and nothing else. -/
def Obligations.ImmediateLoadAndAdd : Prop :=
  ∀ (x : Reg) (nn : Byte) (s : State),
    (∃ t, exec (.ldByte x nn) s = .next t ∧ (∀ r, t.getV r = if r = x then nn else s.getV r) ∧
      t.pc = s.pc + 2 ∧ t = { s with v := t.v, pc := t.pc }) ∧
    (∃ t, exec (.addByte x nn) s = .next t ∧ (t.getV x).toNat = ((s.getV x).toNat + nn.toNat) % 256 ∧
      (∀ r, r ≠ x → t.getV r = s.getV r) ∧ t.pc = s.pc + 2 ∧ t = { s with v := t.v, pc := t.pc })

/-- 42_register_arithmetic.md, `8XY0` (the spec's rule takes `VX = VY` from general knowledge, G6): VY is copied to VX;
no other register changes; `PC + 2`, and nothing else. -/
def Obligations.RegisterCopy : Prop :=
  ∀ (x y : Reg) (s : State), ∃ t, exec (.ldReg x y) s = .next t ∧
    (∀ r, t.getV r = if r = x then s.getV y else s.getV r) ∧ t.pc = s.pc + 2 ∧ t = { s with v := t.v, pc := t.pc }

/-- R105, R106 and R107: the logical operations act on each bit; no other register changes, VF only as destination;
`PC + 2`, and nothing else. -/
def Obligations.LogicalOperations : Prop :=
  ∀ (x y : Reg) (s : State),
    (∃ t, exec (.orReg x y) s = .next t ∧
      (∀ b < 8, (t.getV x).getLsbD b = ((s.getV x).getLsbD b || (s.getV y).getLsbD b)) ∧
      (∀ r, r ≠ x → t.getV r = s.getV r) ∧ t.pc = s.pc + 2 ∧ t = { s with v := t.v, pc := t.pc }) ∧
    (∃ t, exec (.andReg x y) s = .next t ∧
      (∀ b < 8, (t.getV x).getLsbD b = ((s.getV x).getLsbD b && (s.getV y).getLsbD b)) ∧
      (∀ r, r ≠ x → t.getV r = s.getV r) ∧ t.pc = s.pc + 2 ∧ t = { s with v := t.v, pc := t.pc }) ∧
    (∃ t, exec (.xorReg x y) s = .next t ∧
      (∀ b < 8, (t.getV x).getLsbD b = ((s.getV x).getLsbD b ^^ (s.getV y).getLsbD b)) ∧
      (∀ r, r ≠ x → t.getV r = s.getV r) ∧ t.pc = s.pc + 2 ∧ t = { s with v := t.v, pc := t.pc })

/-- R108: `8XY4` sets VX to the sum modulo 256 and then VF to 1 iff the sum passes 255, so that with X = 0xF the carry
is what VF holds; no other register changes; `PC + 2`, and nothing else. -/
def Obligations.AddSetsCarry : Prop :=
  ∀ (x y : Reg) (s : State), ∃ t, exec (.addReg x y) s = .next t ∧
    (t.getV 15).toNat = (if (s.getV x).toNat + (s.getV y).toNat > 255 then 1 else 0) ∧
    (x ≠ 15 → (t.getV x).toNat = ((s.getV x).toNat + (s.getV y).toNat) % 256) ∧
    (∀ r, r ≠ x → r ≠ 15 → t.getV r = s.getV r) ∧ t.pc = s.pc + 2 ∧ t = { s with v := t.v, pc := t.pc }

/-- R109 and R111 (parameter `SUB_VF_POLARITY`, decision D9): `8XY5` sets VX to VX - VY and `8XY7` to VY - VX, modulo
256, and then VF by the one polarity of both; with X = 0xF the flag is what VF holds; no other register changes;
`PC + 2`, and nothing else. -/
def Obligations.SubtractionsSetBorrowFlag : Prop :=
  ∀ (x y : Reg) (s : State) (a b : Nat), a = (s.getV x).toNat → b = (s.getV y).toNat →
    (∃ t, exec (.subReg x y) s = .next t ∧
      (t.getV 15).toNat = (match s.params.subVfPolarity with
        | .noBorrow => if a ≥ b then 1 else 0
        | .borrow => if a < b then 1 else 0) ∧
      (x ≠ 15 → (t.getV x).toNat = (a + 256 - b) % 256) ∧
      (∀ r, r ≠ x → r ≠ 15 → t.getV r = s.getV r) ∧ t.pc = s.pc + 2 ∧ t = { s with v := t.v, pc := t.pc }) ∧
    (∃ t, exec (.subnReg x y) s = .next t ∧
      (t.getV 15).toNat = (match s.params.subVfPolarity with
        | .noBorrow => if b ≥ a then 1 else 0
        | .borrow => if b < a then 1 else 0) ∧
      (x ≠ 15 → (t.getV x).toNat = (b + 256 - a) % 256) ∧
      (∀ r, r ≠ x → r ≠ 15 → t.getV r = s.getV r) ∧ t.pc = s.pc + 2 ∧ t = { s with v := t.v, pc := t.pc })

/-- 42_register_arithmetic.md, the two subtractions under either setting of `SUB_VF_POLARITY` (decision D9): with
`NO_BORROW` VF is 1 iff the minuend is not below the subtrahend, with `BORROW` iff it is. -/
def Obligations.SubtractFlagUnderEitherPolarity : Prop :=
  ∀ (c : Config) (x : Reg) (a b : Byte) (s : State),
    ((subtractInto c x a b s).getV 15 = 1 ↔
      (c.subVfPolarity = .noBorrow ∧ b.toNat ≤ a.toNat) ∨ (c.subVfPolarity = .borrow ∧ a.toNat < b.toNat)) ∧
    ((subtractInto c x a b s).getV 15 = 1 ∨ (subtractInto c x a b s).getV 15 = 0)

/-- R110 and R112: `8XY6` halves VX and `8XYE` doubles it modulo 256, and then VF is the bit shifted out, old bit 0 or
old bit 7; with X = 0xF that bit is what VF holds; no other register changes; `PC + 2`, and nothing else. -/
def Obligations.ShiftsByOneBit : Prop :=
  ∀ (x : Reg) (s : State),
    (∃ t, exec (.shr x) s = .next t ∧ (t.getV 15).toNat = (s.getV x).toNat % 2 ∧
      (x ≠ 15 → (t.getV x).toNat = (s.getV x).toNat / 2) ∧
      (∀ r, r ≠ x → r ≠ 15 → t.getV r = s.getV r) ∧ t.pc = s.pc + 2 ∧ t = { s with v := t.v, pc := t.pc }) ∧
    (∃ t, exec (.shl x) s = .next t ∧ (t.getV 15).toNat = (s.getV x).toNat / 128 ∧
      (x ≠ 15 → (t.getV x).toNat = (s.getV x).toNat * 2 % 256) ∧
      (∀ r, r ≠ x → r ≠ 15 → t.getV r = s.getV r) ∧ t.pc = s.pc + 2 ∧ t = { s with v := t.v, pc := t.pc })

/-- 42_register_arithmetic.md, `CXNN`: VX becomes the drawn byte masked by NN, whatever byte is drawn; no other register
changes; `PC + 2`, and nothing else. The drawn byte is the model's free value and the count of draws the model's own
(logs 6 and 7). -/
def Obligations.RandomByteIsMasked : Prop :=
  ∀ (x : Reg) (nn : Byte) (s : State), ∃ t, exec (.rnd x nn) s = .next t ∧
    t.getV x = (Config.rnd s.draws &&& nn) ∧ (∀ b, nn.getLsbD b = false → (t.getV x).getLsbD b = false) ∧
    (∀ r, r ≠ x → t.getV r = s.getV r) ∧ t.pc = s.pc + 2 ∧ t.draws = s.draws + 1 ∧
    t = { s with v := t.v, pc := t.pc, draws := t.draws }

/-! ### Index and memory (43_memory_index.md) -/

/-- R116 and R118 (`VX > 0xF`: decision D23): `ANNN` sets `I` to NNN, `FX29` to VX times 5 for every VX; `PC + 2`, and
nothing else. -/
def Obligations.IndexLoads : Prop :=
  ∀ s : State,
    (∀ nnn : Addr12, ∃ t, exec (.ldI nnn) s = .next t ∧ t.i.toNat = nnn.toNat ∧ t.pc = s.pc + 2 ∧
      t = { s with i := t.i, pc := t.pc }) ∧
    (∀ x : Reg, ∃ t, exec (.ldF x) s = .next t ∧ t.i.toNat = (s.getV x).toNat * 5 ∧ t.pc = s.pc + 2 ∧
      t = { s with i := t.i, pc := t.pc })

/-- R117 (comparison before truncation: decision D24): `FX1E` adds VX to `I` modulo 2^16, and VF is 1 iff the whole sum
passes 0xFFF; no other register changes; `PC + 2`, and nothing else. -/
def Obligations.IndexAddSetsRangeFlag : Prop :=
  ∀ (x : Reg) (s : State), ∃ t, exec (.addI x) s = .next t ∧
    t.i.toNat = (s.i.toNat + (s.getV x).toNat) % 2 ^ 16 ∧
    (t.getV 15).toNat = (if s.i.toNat + (s.getV x).toNat > 0xFFF then 1 else 0) ∧
    (∀ r, r ≠ 15 → t.getV r = s.getV r) ∧ t.pc = s.pc + 2 ∧ t = { s with v := t.v, i := t.i, pc := t.pc }

/-- R119 (faults: decisions D6, D7, D17): `FX33` stores the hundreds, tens and ones of VX at I, I + 1, I + 2 and changes
no other byte and not `I`; past 0xFFF it raises `MEM_OOB` with `max(I, 0x1000)`, and below 0x200, by the parameter,
`RESERVED_WRITE` with `I`. -/
def Obligations.DecimalDigitsStored : Prop :=
  ∀ (x : Reg) (s : State),
    (s.i.toNat + 2 ≤ 0xFFF → (s.params.reservedWriteFault = true → 0x200 ≤ s.i.toNat) →
      ∃ t, exec (.ldB x) s = .next t ∧
        (Memory.read t.mem s.i.toNat).toNat = (s.getV x).toNat / 100 ∧
        (Memory.read t.mem (s.i.toNat + 1)).toNat = (s.getV x).toNat / 10 % 10 ∧
        (Memory.read t.mem (s.i.toNat + 2)).toNat = (s.getV x).toNat % 10 ∧
        (∀ a, a < s.i.toNat ∨ s.i.toNat + 2 < a → Memory.read t.mem a = Memory.read s.mem a) ∧
        t.pc = s.pc + 2 ∧ t = { s with mem := t.mem, pc := t.pc }) ∧
    (0xFFF < s.i.toNat + 2 → exec (.ldB x) s = .next (s.raiseFault ⟨.memOob, max s.i.toNat 0x1000⟩)) ∧
    (s.i.toNat < 0x200 → s.params.reservedWriteFault = true →
      exec (.ldB x) s = .next (s.raiseFault ⟨.reservedWrite, s.i.toNat⟩))

/-- R120 (faults: decisions D6, D7, D17): `FX55` stores V0 to VX from `I` upward, changes no other byte, and adds X + 1
to `I` modulo 2^16; past 0xFFF it raises `MEM_OOB` with `max(I, 0x1000)`, and below 0x200, by the parameter,
`RESERVED_WRITE` with `I`. -/
def Obligations.RegistersStored : Prop :=
  ∀ (x : Reg) (s : State),
    (s.i.toNat + x.val ≤ 0xFFF → (s.params.reservedWriteFault = true → 0x200 ≤ s.i.toNat) →
      ∃ t, exec (.storeRegs x) s = .next t ∧
        (∀ r : Reg, r ≤ x → Memory.read t.mem (s.i.toNat + r.val) = s.getV r) ∧
        (∀ a, a < s.i.toNat ∨ s.i.toNat + x.val < a → Memory.read t.mem a = Memory.read s.mem a) ∧
        t.i.toNat = (s.i.toNat + x.val + 1) % 2 ^ 16 ∧
        t.pc = s.pc + 2 ∧ t = { s with mem := t.mem, i := t.i, pc := t.pc }) ∧
    (0xFFF < s.i.toNat + x.val → exec (.storeRegs x) s = .next (s.raiseFault ⟨.memOob, max s.i.toNat 0x1000⟩)) ∧
    (s.i.toNat < 0x200 → s.params.reservedWriteFault = true →
      exec (.storeRegs x) s = .next (s.raiseFault ⟨.reservedWrite, s.i.toNat⟩))

/-- R121: `FX65` loads V0 to VX from `I` upward, in the reserved range too, changes no other register, and adds X + 1 to
`I` modulo 2^16; past 0xFFF it raises `MEM_OOB` with `max(I, 0x1000)`. -/
def Obligations.RegistersLoaded : Prop :=
  ∀ (x : Reg) (s : State),
    (s.i.toNat + x.val ≤ 0xFFF →
      ∃ t, exec (.loadRegs x) s = .next t ∧
        (∀ r : Reg, t.getV r = if r ≤ x then Memory.read s.mem (s.i.toNat + r.val) else s.getV r) ∧
        t.i.toNat = (s.i.toNat + x.val + 1) % 2 ^ 16 ∧
        t.pc = s.pc + 2 ∧ t = { s with v := t.v, i := t.i, pc := t.pc }) ∧
    (0xFFF < s.i.toNat + x.val → exec (.loadRegs x) s = .next (s.raiseFault ⟨.memOob, max s.i.toNat 0x1000⟩))

/-- R50 (decision D17): under either setting of `RESERVED_WRITE_FAULT`, a data write below 0x200 faults when it is true
and writes the byte, and no other, when it is false. -/
def Obligations.ReservedWriteFollowsParameter : Prop :=
  ∀ (c : Config) (a : Nat) (b : Byte) (s : State), a < 0x200 →
    (c.reservedWriteFault = true → memWrite c a b s = .error ⟨.reservedWrite, a⟩) ∧
    (c.reservedWriteFault = false → ∃ t, memWrite c a b s = .ok t ∧ Memory.read t.mem a = b ∧
      (∀ k, k ≠ a → Memory.read t.mem k = Memory.read s.mem k) ∧ t = { s with mem := t.mem })

/-- 20_memory.md section 8 (an inference the spec marks as derived): instruction fetch is coherent with data writes: the
word fetched at the place a store wrote is made of the bytes stored. -/
def Obligations.FetchSeesStoredBytes : Prop :=
  ∀ (x : Reg) (s t u : State), 1 ≤ x.val → s.running → exec (.storeRegs x) s = .next t → t.running →
    u.mem = t.mem → u.pc = s.i →
    fetch u = .ok (wordOfBytes (s.getV 0) (s.getV 1))

/-! ### Display (44_display.md) -/

/-- 44_display.md sections on `DXYN` (bit order: general knowledge, G9 and D12; wrap: decision D10; VF: parameter
`DRAW_VF_CLEAR`, D11): every pixel is XORed with the sprite's bit there, VF is 1 on a collision and else 0 or, by the
parameter, unchanged; no other register changes, `I` and memory do not; N = 0 reads nothing. Past 0xFFF it raises
`MEM_OOB` with `max(I, 0x1000)`. -/
def Obligations.DrawXorsSpriteAndReportsCollision : Prop :=
  ∀ (x y : Reg) (n : Nibble) (s : State),
    (n = 0 ∨ s.i.toNat + n.toNat ≤ 0x1000 → ∃ t, exec (.drw x y n) s = .next t ∧
      (∀ px py, t.fb.pixel px py = (s.fb.pixel px py ^^ spriteBit s x y n px py)) ∧
      (spriteHits s x y n → t.getV 15 = 1) ∧
      (¬ spriteHits s x y n → t.getV 15 = if s.params.drawVfClear = true then 0 else s.getV 15) ∧
      (∀ r, r ≠ 15 → t.getV r = s.getV r) ∧ t.pc = s.pc + 2 ∧ t = { s with fb := t.fb, v := t.v, pc := t.pc }) ∧
    (n ≠ 0 → 0x1000 < s.i.toNat + n.toNat →
      exec (.drw x y n) s = .next (s.raiseFault ⟨.memOob, max s.i.toNat 0x1000⟩))

/-- 44_display.md, VF after a draw under either setting of `DRAW_VF_CLEAR` (decision D11), for any sprite rows: 1 on a
collision; else 0 when the parameter is true and the old VF when it is false. -/
def Obligations.DrawFlagUnderEitherSetting : Prop :=
  ∀ (c : Config) (x y : Reg) (rows : List Byte) (s : State),
    ((drawRows (s.getV x).toNat (s.getV y).toNat rows (s.fb, false)).2 = true →
      (drawSprite c x y rows s).getV 15 = 1) ∧
    ((drawRows (s.getV x).toNat (s.getV y).toNat rows (s.fb, false)).2 = false →
      (drawSprite c x y rows s).getV 15 = if c.drawVfClear = true then 0 else s.getV 15)

/-- 44_display.md section on properties, (b) and (c) (inferences the spec marks as derived): the same sprite drawn twice
at the same place (with `I`, VX, VY and the sprite bytes unchanged in between) restores the frame buffer, and the
second draw collides exactly when the first lit some pixel. The second clause is under `DRAW_VF_CLEAR` (decision
D11). -/
def Obligations.DrawingTwiceRestores : Prop :=
  ∀ (x y : Reg) (n : Nibble) (s t u w : State), n = 0 ∨ s.i.toNat + n.toNat ≤ 0x1000 →
    exec (.drw x y n) s = .next t →
    u.fb = t.fb → u.getV x = s.getV x → u.getV y = s.getV y → u.i = s.i → u.mem = s.mem →
    exec (.drw x y n) u = .next w →
    w.fb = s.fb ∧
    (u.params.drawVfClear = true →
      (w.getV 15 = 1 ↔ ∃ px py, s.fb.pixel px py = false ∧ t.fb.pixel px py = true))

/-- 44_display.md section on properties, (d) (an inference the spec marks as derived): right after `00E0` a draw never
collides, and the frame buffer is then the sprite alone, its pixels placed by the bit order of general knowledge (G9, D12;
log 17) and the wrap of decision D10. -/
def Obligations.DrawAfterClearNeverCollides : Prop :=
  ∀ (x y : Reg) (n : Nibble) (s t u : State), n = 0 ∨ s.i.toNat + n.toNat ≤ 0x1000 →
    exec .cls s = .next t → exec (.drw x y n) t = .next u →
    (∀ px py, u.fb.pixel px py = spriteBit s x y n px py) ∧
    (s.params.drawVfClear = true → u.getV 15 = 0)

/-! ### Input and timers (45_input_timers.md) -/

/-- R127 and R128 (`VX > 15`: decision D16): `EX9E` skips when the latch numbered VX is set and `EXA1` when it is not:
`PC + 4`, else `PC + 2`, and nothing else; above 15 both raise `KEY_RANGE` with VX. -/
def Obligations.KeySkips : Prop :=
  ∀ (x : Reg) (s : State),
    (∀ k : Reg, (s.getV x).toNat = k.val →
      exec (.skp x) s = .next { s with pc := if s.keys.get k = true then s.pc + 4 else s.pc + 2 } ∧
      exec (.sknp x) s = .next { s with pc := if s.keys.get k = true then s.pc + 2 else s.pc + 4 }) ∧
    (15 < (s.getV x).toNat →
      exec (.skp x) s = .next (s.raiseFault ⟨.keyRange, (s.getV x).toNat⟩) ∧
      exec (.sknp x) s = .next (s.raiseFault ⟨.keyRange, (s.getV x).toNat⟩))

/-- R129 (lowest key: decision D14): with a latch set, `FX0A` puts the lowest set index in VX and advances `PC` by 2; with
none it sets `blocked` and changes nothing else, `PC` included. -/
def Obligations.WaitForKey : Prop :=
  ∀ (x : Reg) (s : State),
    (∀ k : Reg, s.keys.get k = true → (∀ j : Reg, j < k → s.keys.get j = false) →
      ∃ t, exec (.ldVxK x) s = .next t ∧ (t.getV x).toNat = k.val ∧ (∀ r, r ≠ x → t.getV r = s.getV r) ∧
        t.pc = s.pc + 2 ∧ t = { s with v := t.v, pc := t.pc }) ∧
    ((∀ k : Reg, s.keys.get k = false) →
      exec (.ldVxK x) s = .next { s with out := ⟨true, s.out.tone⟩ })

/-- R130, R131 and R132: `FX07` copies DT to VX, `FX15` VX to DT and `FX18` VX to ST; `PC + 2`, and nothing else. -/
def Obligations.TimerMoves : Prop :=
  ∀ (x : Reg) (s : State),
    (∃ t, exec (.ldVxDt x) s = .next t ∧ (∀ r, t.getV r = if r = x then s.dt else s.getV r) ∧ t.pc = s.pc + 2 ∧
      t = { s with v := t.v, pc := t.pc }) ∧
    exec (.ldDtVx x) s = .next { s with dt := s.getV x, pc := s.pc + 2 } ∧
    exec (.ldStVx x) s = .next { s with st := s.getV x, pc := s.pc + 2 }

/-! ### Reset and load (70_reset_and_hazards.md) -/

/-- R151 (latches: decision D25; `FAULT`: D5), for any parameters, `FONT` among them (D21): `initialize` of a new machine,
or of one in any state, a faulted one too, leaves every piece of state at its reset value, `FONT` in 0x000 to 0x04F and
0x00 above it. The parameters stand in the model's field `params` (log 20). -/
def Obligations.InitializeResetsEverything : Prop :=
  ∀ (s t : State) (c : Config), t = State.initial c ∨ (t = s.restart ∧ c = s.params) →
    (∀ j : Fin 80, Memory.read t.mem j.val = c.font.get j) ∧
    (∀ a, 80 ≤ a → Memory.read t.mem a = 0) ∧
    (∀ r, t.getV r = 0) ∧ t.i = 0 ∧ t.pc = 0x200 ∧ t.sp = 0 ∧ (∀ k : Fin 16, t.stack.get k = 0) ∧
    t.dt = 0 ∧ t.st = 0 ∧ (∀ x y, t.fb.pixel x y = false) ∧ (∀ k : Fin 16, t.keys.get k = false) ∧
    t.fault = ⟨.noFault, 0⟩ ∧ t.params = c

/-- 00_scope.md section 4, 10_state.md section 13 (font bytes: general knowledge, D21; log 5): the reset state is that of a
machine with the defaults of the spec's parameters, and each glyph of the default `FONT` stands five bytes after the one
before. That the model's reset takes the defaults: logs 1 to 5. -/
def Obligations.ResetTakesDefaultParameters : Prop :=
  State.reset = State.initial State.reset.params ∧
  State.reset.params.subVfPolarity = .noBorrow ∧ State.reset.params.drawVfClear = true ∧
  State.reset.params.tickDuringStall = true ∧ State.reset.params.reservedWriteFault = true ∧
  ∀ d : Fin 16, (List.range 5).map (fun k => Memory.read State.reset.mem (5 * d.val + k)) =
    (match d.val with
      | 0x0 => [0xF0, 0x90, 0x90, 0x90, 0xF0]
      | 0x1 => [0x20, 0x60, 0x20, 0x20, 0x70]
      | 0x2 => [0xF0, 0x10, 0xF0, 0x80, 0xF0]
      | 0x3 => [0xF0, 0x10, 0xF0, 0x10, 0xF0]
      | 0x4 => [0x90, 0x90, 0xF0, 0x10, 0x10]
      | 0x5 => [0xF0, 0x80, 0xF0, 0x10, 0xF0]
      | 0x6 => [0xF0, 0x80, 0xF0, 0x90, 0xF0]
      | 0x7 => [0xF0, 0x10, 0x20, 0x40, 0x40]
      | 0x8 => [0xF0, 0x90, 0xF0, 0x90, 0xF0]
      | 0x9 => [0xF0, 0x90, 0xF0, 0x10, 0xF0]
      | 0xA => [0xF0, 0x90, 0xF0, 0x90, 0x90]
      | 0xB => [0xE0, 0x90, 0xE0, 0x90, 0xE0]
      | 0xC => [0xF0, 0x80, 0x80, 0x80, 0xF0]
      | 0xD => [0xE0, 0x90, 0x90, 0x90, 0xE0]
      | 0xE => [0xF0, 0x80, 0xF0, 0x80, 0xF0]
      | _ => [0xF0, 0x80, 0xF0, 0x80, 0x80])

/-- R154: `load_program` of at most 3584 bytes places them from 0x200 and writes nothing else, from any state. -/
def Obligations.LoadPlacesImage : Prop :=
  ∀ (s : State) (bytes : List Byte), bytes.length ≤ 3584 →
    ∃ t, s.loadProgram bytes = (.loaded, t) ∧
      (∀ a, Memory.read t.mem a =
        if 0x200 ≤ a ∧ a < 0x200 + bytes.length then bytes.getD (a - 0x200) 0 else Memory.read s.mem a) ∧
      t = { s with mem := t.mem }

/-- R155 (nothing written: decision D28): a longer image is refused with `LOAD_TOO_LARGE` and changes nothing. -/
def Obligations.LoadTooLargeChangesNothing : Prop :=
  ∀ (s : State) (bytes : List Byte), 3584 < bytes.length → s.loadProgram bytes = (.tooLarge, s)
end

