-- ==== Sys2Proof/Laws/Encoding.lean ====
section
/-! SUPPORT. The fields of a word built by a format are what was put in: the laws decoding and encoding rest on. -/

namespace Sys2Proof

theorem extract_append_high {n m : Nat} (a : BitVec n) (b : BitVec m) (s k : Nat) (h : m ≤ s) :
    (a ++ b).extractLsb' s k = a.extractLsb' (s - m) k := by
  ext i hi
  simp only [BitVec.getElem_extractLsb', BitVec.getLsbD_append]
  rw [if_neg (by omega)]
  congr 1
  omega

theorem extract_append_low {n m : Nat} (a : BitVec n) (b : BitVec m) (s k : Nat) (h : s + k ≤ m) :
    (a ++ b).extractLsb' s k = b.extractLsb' s k := by
  ext i hi
  simp only [BitVec.getElem_extractLsb', BitVec.getLsbD_append]
  rw [if_pos (by omega)]

theorem extract_whole {n : Nat} (a : BitVec n) : a.extractLsb' 0 n = a := by
  ext i hi
  simp

@[simp] theorem regBits_toNat (r : Reg) : (regBits r).toNat = r.val := by
  simp [regBits]

/-! ### Format `F_NNN` -/

@[simp] theorem fieldOp_formatNNN (op : Nibble) (nnn : Addr12) : fieldOp (formatNNN op nnn) = op := by
  rw [fieldOp, formatNNN, extract_append_high _ _ _ _ (by omega)]
  exact extract_whole op

@[simp] theorem fieldNNN_formatNNN (op : Nibble) (nnn : Addr12) : fieldNNN (formatNNN op nnn) = nnn := by
  rw [fieldNNN, formatNNN, extract_append_low _ _ _ _ (by omega)]
  exact extract_whole nnn

/-! ### Format `F_XNN` -/

@[simp] theorem fieldOp_formatXNN (op : Nibble) (x : Reg) (nn : Byte) : fieldOp (formatXNN op x nn) = op := by
  rw [fieldOp, formatXNN, extract_append_high _ _ _ _ (by omega),
    extract_append_high _ _ _ _ (by omega)]
  exact extract_whole op

@[simp] theorem fieldX_formatXNN (op : Nibble) (x : Reg) (nn : Byte) : fieldX (formatXNN op x nn) = x := by
  apply Fin.ext
  show ((formatXNN op x nn).extractLsb' 8 4).toNat = x.val
  rw [formatXNN, extract_append_high _ _ _ _ (by omega),
    extract_append_low _ _ _ _ (by omega), extract_whole, regBits_toNat]

@[simp] theorem fieldNN_formatXNN (op : Nibble) (x : Reg) (nn : Byte) : fieldNN (formatXNN op x nn) = nn := by
  rw [fieldNN, formatXNN, extract_append_low _ _ _ _ (by omega)]
  exact extract_whole nn

/-! ### Format `F_XYN` -/

@[simp] theorem fieldOp_formatXYN (op : Nibble) (x y : Reg) (n : Nibble) : fieldOp (formatXYN op x y n) = op := by
  rw [fieldOp, formatXYN, extract_append_high _ _ _ _ (by omega),
    extract_append_high _ _ _ _ (by omega), extract_append_high _ _ _ _ (by omega)]
  exact extract_whole op

@[simp] theorem fieldX_formatXYN (op : Nibble) (x y : Reg) (n : Nibble) : fieldX (formatXYN op x y n) = x := by
  apply Fin.ext
  show ((formatXYN op x y n).extractLsb' 8 4).toNat = x.val
  rw [formatXYN, extract_append_high _ _ _ _ (by omega),
    extract_append_high _ _ _ _ (by omega), extract_append_low _ _ _ _ (by omega),
    extract_whole, regBits_toNat]

@[simp] theorem fieldY_formatXYN (op : Nibble) (x y : Reg) (n : Nibble) : fieldY (formatXYN op x y n) = y := by
  apply Fin.ext
  show ((formatXYN op x y n).extractLsb' 4 4).toNat = y.val
  rw [formatXYN, extract_append_high _ _ _ _ (by omega),
    extract_append_low _ _ _ _ (by omega), extract_whole, regBits_toNat]

@[simp] theorem fieldN_formatXYN (op : Nibble) (x y : Reg) (n : Nibble) : fieldN (formatXYN op x y n) = n := by
  rw [fieldN, formatXYN, extract_append_low _ _ _ _ (by omega)]
  exact extract_whole n

/-! ### A word is its fields put together -/

@[simp] theorem regBits_fieldX (w : Word) : regBits (fieldX w) = w.extractLsb' 8 4 := by
  apply BitVec.eq_of_toNat_eq
  rw [regBits_toNat]
  rfl

@[simp] theorem regBits_fieldY (w : Word) : regBits (fieldY w) = w.extractLsb' 4 4 := by
  apply BitVec.eq_of_toNat_eq
  rw [regBits_toNat]
  rfl

theorem formatNNN_fields (w : Word) : formatNNN (fieldOp w) (fieldNNN w) = w := by
  rw [formatNNN, fieldOp, fieldNNN]
  ext i hi
  simp only [BitVec.getElem_append, BitVec.getElem_extractLsb']
  split
  · rw [← BitVec.getLsbD_eq_getElem]
    simp
  · next h =>
    rw [← BitVec.getLsbD_eq_getElem]
    congr 1
    omega

theorem formatXNN_fields (w : Word) : formatXNN (fieldOp w) (fieldX w) (fieldNN w) = w := by
  rw [formatXNN, fieldOp, fieldNN, regBits_fieldX]
  ext i hi
  simp only [BitVec.getElem_append, BitVec.getElem_extractLsb']
  split
  · rw [← BitVec.getLsbD_eq_getElem]
    simp
  · split
    · rw [← BitVec.getLsbD_eq_getElem]
      congr 1
      omega
    · rw [← BitVec.getLsbD_eq_getElem]
      congr 1
      omega

theorem formatXYN_fields (w : Word) : formatXYN (fieldOp w) (fieldX w) (fieldY w) (fieldN w) = w := by
  rw [formatXYN, fieldOp, fieldN, regBits_fieldX, regBits_fieldY]
  ext i hi
  simp only [BitVec.getElem_append, BitVec.getElem_extractLsb']
  split
  · rw [← BitVec.getLsbD_eq_getElem]
    simp
  · split
    · rw [← BitVec.getLsbD_eq_getElem]
      congr 1
      omega
    · split
      · rw [← BitVec.getLsbD_eq_getElem]
        congr 1
        omega
      · rw [← BitVec.getLsbD_eq_getElem]
        congr 1
        omega

/-- The two bytes of a word put it together again (R45). -/
theorem wordOfBytes_bytes (w : Word) : wordOfBytes (highByte w) (lowByte w) = w := by
  rw [wordOfBytes, highByte, lowByte]
  ext i hi
  simp only [BitVec.getElem_append, BitVec.getElem_extractLsb']
  split
  · rw [← BitVec.getLsbD_eq_getElem]
    simp
  · rw [← BitVec.getLsbD_eq_getElem]
    congr 1
    omega

end Sys2Proof
end

