-- ==== Sys2Proof/Laws/Decoding.lean ====
section
/-! SUPPORT. The decoder by groups: which arm each value of the top nibble selects, and what each group can answer, so
that a claim over all words is a case split on the group. -/

namespace Sys2Proof

/-- A nibble is one of sixteen values. -/
theorem nibble_cases : ∀ n : Nibble, n = 0x0 ∨ n = 0x1 ∨ n = 0x2 ∨ n = 0x3 ∨ n = 0x4 ∨ n = 0x5 ∨ n = 0x6 ∨ n = 0x7 ∨
    n = 0x8 ∨ n = 0x9 ∨ n = 0xA ∨ n = 0xB ∨ n = 0xC ∨ n = 0xD ∨ n = 0xE ∨ n = 0xF := by decide

theorem decode_of_op0 {w : Word} (h : fieldOp w = 0x0) :
    decode w = .ok (decodeGroup0 w) := by
  simp [decode, h]

theorem decode_of_op1 {w : Word} (h : fieldOp w = 0x1) :
    decode w = .ok (.jp (fieldNNN w)) := by
  simp [decode, h]

theorem decode_of_op2 {w : Word} (h : fieldOp w = 0x2) :
    decode w = .ok (.call (fieldNNN w)) := by
  simp [decode, h]

theorem decode_of_op3 {w : Word} (h : fieldOp w = 0x3) :
    decode w = .ok (.seByte (fieldX w) (fieldNN w)) := by
  simp [decode, h]

theorem decode_of_op4 {w : Word} (h : fieldOp w = 0x4) :
    decode w = .ok (.sneByte (fieldX w) (fieldNN w)) := by
  simp [decode, h]

theorem decode_of_op5 {w : Word} (h : fieldOp w = 0x5) :
    decode w = (if fieldN w = 0x0 then .ok (.seReg (fieldX w) (fieldY w)) else .error .group5) := by
  simp [decode, h]

theorem decode_of_op6 {w : Word} (h : fieldOp w = 0x6) :
    decode w = .ok (.ldByte (fieldX w) (fieldNN w)) := by
  simp [decode, h]

theorem decode_of_op7 {w : Word} (h : fieldOp w = 0x7) :
    decode w = .ok (.addByte (fieldX w) (fieldNN w)) := by
  simp [decode, h]

theorem decode_of_op8 {w : Word} (h : fieldOp w = 0x8) :
    decode w = decodeGroup8 w := by
  simp [decode, h]

theorem decode_of_op9 {w : Word} (h : fieldOp w = 0x9) :
    decode w = (if fieldN w = 0x0 then .ok (.sneReg (fieldX w) (fieldY w)) else .error .group9) := by
  simp [decode, h]

theorem decode_of_opA {w : Word} (h : fieldOp w = 0xA) :
    decode w = .ok (.ldI (fieldNNN w)) := by
  simp [decode, h]

theorem decode_of_opB {w : Word} (h : fieldOp w = 0xB) :
    decode w = .ok (.jpV0 (fieldNNN w)) := by
  simp [decode, h]

theorem decode_of_opC {w : Word} (h : fieldOp w = 0xC) :
    decode w = .ok (.rnd (fieldX w) (fieldNN w)) := by
  simp [decode, h]

theorem decode_of_opD {w : Word} (h : fieldOp w = 0xD) :
    decode w = .ok (.drw (fieldX w) (fieldY w) (fieldN w)) := by
  simp [decode, h]

theorem decode_of_opE {w : Word} (h : fieldOp w = 0xE) :
    decode w = decodeGroupE w := by
  simp [decode, h]

theorem decode_of_opF {w : Word} (h : fieldOp w = 0xF) :
    decode w = decodeGroupF w := by
  simp [decode, h]

/-- What group 8 can answer. -/
theorem decodeGroup8_cases {w : Word} {i : Instr} (h : decodeGroup8 w = .ok i) :
    (fieldN w = 0x0 ∧ i = .ldReg (fieldX w) (fieldY w)) ∨
    (fieldN w = 0x1 ∧ i = .orReg (fieldX w) (fieldY w)) ∨
    (fieldN w = 0x2 ∧ i = .andReg (fieldX w) (fieldY w)) ∨
    (fieldN w = 0x3 ∧ i = .xorReg (fieldX w) (fieldY w)) ∨
    (fieldN w = 0x4 ∧ i = .addReg (fieldX w) (fieldY w)) ∨
    (fieldN w = 0x5 ∧ i = .subReg (fieldX w) (fieldY w)) ∨
    (fieldN w = 0x6 ∧ i = .shr (fieldX w)) ∨
    (fieldN w = 0x7 ∧ i = .subnReg (fieldX w) (fieldY w)) ∨
    (fieldN w = 0xE ∧ i = .shl (fieldX w)) := by
  unfold decodeGroup8 at h
  simp only at h
  by_cases h0 : fieldN w = 0x0
  · rw [if_pos h0] at h; cases h; exact .inl ⟨h0, rfl⟩
  rw [if_neg h0] at h
  by_cases h1 : fieldN w = 0x1
  · rw [if_pos h1] at h; cases h; exact .inr (.inl ⟨h1, rfl⟩)
  rw [if_neg h1] at h
  by_cases h2 : fieldN w = 0x2
  · rw [if_pos h2] at h; cases h; exact .inr (.inr (.inl ⟨h2, rfl⟩))
  rw [if_neg h2] at h
  by_cases h3 : fieldN w = 0x3
  · rw [if_pos h3] at h; cases h; exact .inr (.inr (.inr (.inl ⟨h3, rfl⟩)))
  rw [if_neg h3] at h
  by_cases h4 : fieldN w = 0x4
  · rw [if_pos h4] at h; cases h; exact .inr (.inr (.inr (.inr (.inl ⟨h4, rfl⟩))))
  rw [if_neg h4] at h
  by_cases h5 : fieldN w = 0x5
  · rw [if_pos h5] at h; cases h; exact .inr (.inr (.inr (.inr (.inr (.inl ⟨h5, rfl⟩)))))
  rw [if_neg h5] at h
  by_cases h6 : fieldN w = 0x6
  · rw [if_pos h6] at h; cases h; exact .inr (.inr (.inr (.inr (.inr (.inr (.inl ⟨h6, rfl⟩))))))
  rw [if_neg h6] at h
  by_cases h7 : fieldN w = 0x7
  · rw [if_pos h7] at h; cases h; exact .inr (.inr (.inr (.inr (.inr (.inr (.inr (.inl ⟨h7, rfl⟩)))))))
  rw [if_neg h7] at h
  by_cases hE : fieldN w = 0xE
  · rw [if_pos hE] at h; cases h; exact .inr (.inr (.inr (.inr (.inr (.inr (.inr (.inr (⟨hE, rfl⟩))))))))
  rw [if_neg hE] at h
  cases h

/-- A word of the group is unrecognized exactly when its sub-operation is none of those. -/
theorem decodeGroup8_error {w : Word} :
    (∃ e, decodeGroup8 w = .error e) ↔ fieldN w ≠ 0x0 ∧ fieldN w ≠ 0x1 ∧ fieldN w ≠ 0x2 ∧ fieldN w ≠ 0x3 ∧ fieldN w ≠ 0x4 ∧ fieldN w ≠ 0x5 ∧ fieldN w ≠ 0x6 ∧ fieldN w ≠ 0x7 ∧ fieldN w ≠ 0xE := by
  unfold decodeGroup8
  simp only
  constructor
  · rintro ⟨e, h⟩
    refine ⟨?_, ?_, ?_, ?_, ?_, ?_, ?_, ?_, ?_⟩ <;> intro hk <;> simp [hk] at h
  · rintro ⟨h0, h1, h2, h3, h4, h5, h6, h7, hE⟩
    exact ⟨_, by rw [if_neg h0, if_neg h1, if_neg h2, if_neg h3, if_neg h4, if_neg h5, if_neg h6, if_neg h7, if_neg hE]⟩

/-- What group E can answer. -/
theorem decodeGroupE_cases {w : Word} {i : Instr} (h : decodeGroupE w = .ok i) :
    (fieldNN w = 0x9E ∧ i = .skp (fieldX w)) ∨
    (fieldNN w = 0xA1 ∧ i = .sknp (fieldX w)) := by
  unfold decodeGroupE at h
  by_cases h9E : fieldNN w = 0x9E
  · rw [if_pos h9E] at h; cases h; exact .inl ⟨h9E, rfl⟩
  rw [if_neg h9E] at h
  by_cases hA1 : fieldNN w = 0xA1
  · rw [if_pos hA1] at h; cases h; exact .inr (⟨hA1, rfl⟩)
  rw [if_neg hA1] at h
  cases h

/-- A word of the group is unrecognized exactly when its sub-operation is none of those. -/
theorem decodeGroupE_error {w : Word} :
    (∃ e, decodeGroupE w = .error e) ↔ fieldNN w ≠ 0x9E ∧ fieldNN w ≠ 0xA1 := by
  unfold decodeGroupE
  constructor
  · rintro ⟨e, h⟩
    refine ⟨?_, ?_⟩ <;> intro hk <;> simp [hk] at h
  · rintro ⟨h9E, hA1⟩
    exact ⟨_, by rw [if_neg h9E, if_neg hA1]⟩

/-- What group F can answer. -/
theorem decodeGroupF_cases {w : Word} {i : Instr} (h : decodeGroupF w = .ok i) :
    (fieldNN w = 0x07 ∧ i = .ldVxDt (fieldX w)) ∨
    (fieldNN w = 0x0A ∧ i = .ldVxK (fieldX w)) ∨
    (fieldNN w = 0x15 ∧ i = .ldDtVx (fieldX w)) ∨
    (fieldNN w = 0x18 ∧ i = .ldStVx (fieldX w)) ∨
    (fieldNN w = 0x1E ∧ i = .addI (fieldX w)) ∨
    (fieldNN w = 0x29 ∧ i = .ldF (fieldX w)) ∨
    (fieldNN w = 0x33 ∧ i = .ldB (fieldX w)) ∨
    (fieldNN w = 0x55 ∧ i = .storeRegs (fieldX w)) ∨
    (fieldNN w = 0x65 ∧ i = .loadRegs (fieldX w)) := by
  unfold decodeGroupF at h
  simp only at h
  by_cases h07 : fieldNN w = 0x07
  · rw [if_pos h07] at h; cases h; exact .inl ⟨h07, rfl⟩
  rw [if_neg h07] at h
  by_cases h0A : fieldNN w = 0x0A
  · rw [if_pos h0A] at h; cases h; exact .inr (.inl ⟨h0A, rfl⟩)
  rw [if_neg h0A] at h
  by_cases h15 : fieldNN w = 0x15
  · rw [if_pos h15] at h; cases h; exact .inr (.inr (.inl ⟨h15, rfl⟩))
  rw [if_neg h15] at h
  by_cases h18 : fieldNN w = 0x18
  · rw [if_pos h18] at h; cases h; exact .inr (.inr (.inr (.inl ⟨h18, rfl⟩)))
  rw [if_neg h18] at h
  by_cases h1E : fieldNN w = 0x1E
  · rw [if_pos h1E] at h; cases h; exact .inr (.inr (.inr (.inr (.inl ⟨h1E, rfl⟩))))
  rw [if_neg h1E] at h
  by_cases h29 : fieldNN w = 0x29
  · rw [if_pos h29] at h; cases h; exact .inr (.inr (.inr (.inr (.inr (.inl ⟨h29, rfl⟩)))))
  rw [if_neg h29] at h
  by_cases h33 : fieldNN w = 0x33
  · rw [if_pos h33] at h; cases h; exact .inr (.inr (.inr (.inr (.inr (.inr (.inl ⟨h33, rfl⟩))))))
  rw [if_neg h33] at h
  by_cases h55 : fieldNN w = 0x55
  · rw [if_pos h55] at h; cases h; exact .inr (.inr (.inr (.inr (.inr (.inr (.inr (.inl ⟨h55, rfl⟩)))))))
  rw [if_neg h55] at h
  by_cases h65 : fieldNN w = 0x65
  · rw [if_pos h65] at h; cases h; exact .inr (.inr (.inr (.inr (.inr (.inr (.inr (.inr (⟨h65, rfl⟩))))))))
  rw [if_neg h65] at h
  cases h

/-- A word of the group is unrecognized exactly when its sub-operation is none of those. -/
theorem decodeGroupF_error {w : Word} :
    (∃ e, decodeGroupF w = .error e) ↔ fieldNN w ≠ 0x07 ∧ fieldNN w ≠ 0x0A ∧ fieldNN w ≠ 0x15 ∧ fieldNN w ≠ 0x18 ∧ fieldNN w ≠ 0x1E ∧ fieldNN w ≠ 0x29 ∧ fieldNN w ≠ 0x33 ∧ fieldNN w ≠ 0x55 ∧ fieldNN w ≠ 0x65 := by
  unfold decodeGroupF
  simp only
  constructor
  · rintro ⟨e, h⟩
    refine ⟨?_, ?_, ?_, ?_, ?_, ?_, ?_, ?_, ?_⟩ <;> intro hk <;> simp [hk] at h
  · rintro ⟨h07, h0A, h15, h18, h1E, h29, h33, h55, h65⟩
    exact ⟨_, by rw [if_neg h07, if_neg h0A, if_neg h15, if_neg h18, if_neg h1E, if_neg h29, if_neg h33, if_neg h55, if_neg h65]⟩

/-- What group 0 can answer. -/
theorem decodeGroup0_cases (w : Word) :
    (w = 0x00E0 ∧ decodeGroup0 w = .cls) ∨ (w = 0x00EE ∧ decodeGroup0 w = .ret) ∨
      (w ≠ 0x00E0 ∧ w ≠ 0x00EE ∧ decodeGroup0 w = .sys (fieldNNN w)) := by
  unfold decodeGroup0
  by_cases h1 : w = 0x00E0
  · exact .inl ⟨h1, if_pos h1⟩
  · by_cases h2 : w = 0x00EE
    · exact .inr (.inl ⟨h2, by rw [if_neg h1, if_pos h2]⟩)
    · exact .inr (.inr ⟨h1, h2, by rw [if_neg h1, if_neg h2]⟩)

/-! ### The fields as numbers -/

theorem fieldOp_toNat (w : Word) : (fieldOp w).toNat = w.toNat / 4096 := by
  have := w.isLt
  simp [fieldOp, Nat.shiftRight_eq_div_pow]
  omega

theorem fieldX_val (w : Word) : (fieldX w).val = w.toNat / 256 % 16 := by simp [fieldX, Nat.shiftRight_eq_div_pow]

theorem fieldN_toNat (w : Word) : (fieldN w).toNat = w.toNat % 16 := by simp [fieldN]

theorem fieldNN_toNat (w : Word) : (fieldNN w).toNat = w.toNat % 256 := by simp [fieldNN]

/-- A word of format `F_XYN` as a number. -/
theorem formatXYN_toNat (op : Nibble) (x y : Reg) (n : Nibble) :
    (formatXYN op x y n).toNat = op.toNat * 4096 + x.val * 256 + y.val * 16 + n.toNat := by
  have hx := (regBits x).isLt
  have hy := (regBits y).isLt
  have hn := n.isLt
  rw [formatXYN, BitVec.toNat_append, BitVec.toNat_append, BitVec.toNat_append, ← Nat.shiftLeft_add_eq_or_of_lt hx,
    ← Nat.shiftLeft_add_eq_or_of_lt hy, ← Nat.shiftLeft_add_eq_or_of_lt hn, regBits_toNat, regBits_toNat]
  simp only [Nat.shiftLeft_eq]
  omega

end Sys2Proof
end

