-- ==== Sys2Proof/Laws/State.lean ====
section
/-! SUPPORT. Each field after each update of the state, so that no proof unfolds a record update. -/

namespace Sys2Proof.Machine

/-! ### setV -/

@[simp] theorem State.setV_mem (s : State) (x : Reg) (b : Byte) : (s.setV x b).mem = s.mem := rfl
@[simp] theorem State.setV_v (s : State) (x : Reg) (b : Byte) : (s.setV x b).v = s.v.set x.val b x.isLt := rfl
@[simp] theorem State.setV_i (s : State) (x : Reg) (b : Byte) : (s.setV x b).i = s.i := rfl
@[simp] theorem State.setV_pc (s : State) (x : Reg) (b : Byte) : (s.setV x b).pc = s.pc := rfl
@[simp] theorem State.setV_stack (s : State) (x : Reg) (b : Byte) : (s.setV x b).stack = s.stack := rfl
@[simp] theorem State.setV_sp (s : State) (x : Reg) (b : Byte) : (s.setV x b).sp = s.sp := rfl
@[simp] theorem State.setV_dt (s : State) (x : Reg) (b : Byte) : (s.setV x b).dt = s.dt := rfl
@[simp] theorem State.setV_st (s : State) (x : Reg) (b : Byte) : (s.setV x b).st = s.st := rfl
@[simp] theorem State.setV_fb (s : State) (x : Reg) (b : Byte) : (s.setV x b).fb = s.fb := rfl
@[simp] theorem State.setV_keys (s : State) (x : Reg) (b : Byte) : (s.setV x b).keys = s.keys := rfl
@[simp] theorem State.setV_fault (s : State) (x : Reg) (b : Byte) : (s.setV x b).fault = s.fault := rfl
@[simp] theorem State.setV_out (s : State) (x : Reg) (b : Byte) : (s.setV x b).out = s.out := rfl
@[simp] theorem State.setV_draws (s : State) (x : Reg) (b : Byte) : (s.setV x b).draws = s.draws := rfl
@[simp] theorem State.setV_params (s : State) (x : Reg) (b : Byte) : (s.setV x b).params = s.params := rfl

/-! ### setVF -/

@[simp] theorem State.setVF_mem (s : State) (x : Reg) (b f : Byte) : (s.setVF x b f).mem = s.mem := rfl
@[simp] theorem State.setVF_v (s : State) (x : Reg) (b f : Byte) : (s.setVF x b f).v = (s.v.set x.val b x.isLt).set regF.val f regF.isLt := rfl
@[simp] theorem State.setVF_i (s : State) (x : Reg) (b f : Byte) : (s.setVF x b f).i = s.i := rfl
@[simp] theorem State.setVF_pc (s : State) (x : Reg) (b f : Byte) : (s.setVF x b f).pc = s.pc := rfl
@[simp] theorem State.setVF_stack (s : State) (x : Reg) (b f : Byte) : (s.setVF x b f).stack = s.stack := rfl
@[simp] theorem State.setVF_sp (s : State) (x : Reg) (b f : Byte) : (s.setVF x b f).sp = s.sp := rfl
@[simp] theorem State.setVF_dt (s : State) (x : Reg) (b f : Byte) : (s.setVF x b f).dt = s.dt := rfl
@[simp] theorem State.setVF_st (s : State) (x : Reg) (b f : Byte) : (s.setVF x b f).st = s.st := rfl
@[simp] theorem State.setVF_fb (s : State) (x : Reg) (b f : Byte) : (s.setVF x b f).fb = s.fb := rfl
@[simp] theorem State.setVF_keys (s : State) (x : Reg) (b f : Byte) : (s.setVF x b f).keys = s.keys := rfl
@[simp] theorem State.setVF_fault (s : State) (x : Reg) (b f : Byte) : (s.setVF x b f).fault = s.fault := rfl
@[simp] theorem State.setVF_out (s : State) (x : Reg) (b f : Byte) : (s.setVF x b f).out = s.out := rfl
@[simp] theorem State.setVF_draws (s : State) (x : Reg) (b f : Byte) : (s.setVF x b f).draws = s.draws := rfl
@[simp] theorem State.setVF_params (s : State) (x : Reg) (b f : Byte) : (s.setVF x b f).params = s.params := rfl

/-! ### setI -/

@[simp] theorem State.setI_mem (s : State) (n : Nat) : (s.setI n).mem = s.mem := rfl
@[simp] theorem State.setI_v (s : State) (n : Nat) : (s.setI n).v = s.v := rfl
@[simp] theorem State.setI_i (s : State) (n : Nat) : (s.setI n).i = BitVec.ofNat 16 n := rfl
@[simp] theorem State.setI_pc (s : State) (n : Nat) : (s.setI n).pc = s.pc := rfl
@[simp] theorem State.setI_stack (s : State) (n : Nat) : (s.setI n).stack = s.stack := rfl
@[simp] theorem State.setI_sp (s : State) (n : Nat) : (s.setI n).sp = s.sp := rfl
@[simp] theorem State.setI_dt (s : State) (n : Nat) : (s.setI n).dt = s.dt := rfl
@[simp] theorem State.setI_st (s : State) (n : Nat) : (s.setI n).st = s.st := rfl
@[simp] theorem State.setI_fb (s : State) (n : Nat) : (s.setI n).fb = s.fb := rfl
@[simp] theorem State.setI_keys (s : State) (n : Nat) : (s.setI n).keys = s.keys := rfl
@[simp] theorem State.setI_fault (s : State) (n : Nat) : (s.setI n).fault = s.fault := rfl
@[simp] theorem State.setI_out (s : State) (n : Nat) : (s.setI n).out = s.out := rfl
@[simp] theorem State.setI_draws (s : State) (n : Nat) : (s.setI n).draws = s.draws := rfl
@[simp] theorem State.setI_params (s : State) (n : Nat) : (s.setI n).params = s.params := rfl

/-! ### jumpTo -/

@[simp] theorem State.jumpTo_mem (s : State) (a : Word) : (s.jumpTo a).mem = s.mem := rfl
@[simp] theorem State.jumpTo_v (s : State) (a : Word) : (s.jumpTo a).v = s.v := rfl
@[simp] theorem State.jumpTo_i (s : State) (a : Word) : (s.jumpTo a).i = s.i := rfl
@[simp] theorem State.jumpTo_pc (s : State) (a : Word) : (s.jumpTo a).pc = a := rfl
@[simp] theorem State.jumpTo_stack (s : State) (a : Word) : (s.jumpTo a).stack = s.stack := rfl
@[simp] theorem State.jumpTo_sp (s : State) (a : Word) : (s.jumpTo a).sp = s.sp := rfl
@[simp] theorem State.jumpTo_dt (s : State) (a : Word) : (s.jumpTo a).dt = s.dt := rfl
@[simp] theorem State.jumpTo_st (s : State) (a : Word) : (s.jumpTo a).st = s.st := rfl
@[simp] theorem State.jumpTo_fb (s : State) (a : Word) : (s.jumpTo a).fb = s.fb := rfl
@[simp] theorem State.jumpTo_keys (s : State) (a : Word) : (s.jumpTo a).keys = s.keys := rfl
@[simp] theorem State.jumpTo_fault (s : State) (a : Word) : (s.jumpTo a).fault = s.fault := rfl
@[simp] theorem State.jumpTo_out (s : State) (a : Word) : (s.jumpTo a).out = s.out := rfl
@[simp] theorem State.jumpTo_draws (s : State) (a : Word) : (s.jumpTo a).draws = s.draws := rfl
@[simp] theorem State.jumpTo_params (s : State) (a : Word) : (s.jumpTo a).params = s.params := rfl

/-! ### advance -/

@[simp] theorem State.advance_mem (s : State) : (s.advance).mem = s.mem := rfl
@[simp] theorem State.advance_v (s : State) : (s.advance).v = s.v := rfl
@[simp] theorem State.advance_i (s : State) : (s.advance).i = s.i := rfl
@[simp] theorem State.advance_pc (s : State) : (s.advance).pc = s.pc + 2 := rfl
@[simp] theorem State.advance_stack (s : State) : (s.advance).stack = s.stack := rfl
@[simp] theorem State.advance_sp (s : State) : (s.advance).sp = s.sp := rfl
@[simp] theorem State.advance_dt (s : State) : (s.advance).dt = s.dt := rfl
@[simp] theorem State.advance_st (s : State) : (s.advance).st = s.st := rfl
@[simp] theorem State.advance_fb (s : State) : (s.advance).fb = s.fb := rfl
@[simp] theorem State.advance_keys (s : State) : (s.advance).keys = s.keys := rfl
@[simp] theorem State.advance_fault (s : State) : (s.advance).fault = s.fault := rfl
@[simp] theorem State.advance_out (s : State) : (s.advance).out = s.out := rfl
@[simp] theorem State.advance_draws (s : State) : (s.advance).draws = s.draws := rfl
@[simp] theorem State.advance_params (s : State) : (s.advance).params = s.params := rfl

/-! ### raiseFault -/

@[simp] theorem State.raiseFault_mem (s : State) (f : FaultStatus) : (s.raiseFault f).mem = s.mem := rfl
@[simp] theorem State.raiseFault_v (s : State) (f : FaultStatus) : (s.raiseFault f).v = s.v := rfl
@[simp] theorem State.raiseFault_i (s : State) (f : FaultStatus) : (s.raiseFault f).i = s.i := rfl
@[simp] theorem State.raiseFault_pc (s : State) (f : FaultStatus) : (s.raiseFault f).pc = s.pc := rfl
@[simp] theorem State.raiseFault_stack (s : State) (f : FaultStatus) : (s.raiseFault f).stack = s.stack := rfl
@[simp] theorem State.raiseFault_sp (s : State) (f : FaultStatus) : (s.raiseFault f).sp = s.sp := rfl
@[simp] theorem State.raiseFault_dt (s : State) (f : FaultStatus) : (s.raiseFault f).dt = s.dt := rfl
@[simp] theorem State.raiseFault_st (s : State) (f : FaultStatus) : (s.raiseFault f).st = s.st := rfl
@[simp] theorem State.raiseFault_fb (s : State) (f : FaultStatus) : (s.raiseFault f).fb = s.fb := rfl
@[simp] theorem State.raiseFault_keys (s : State) (f : FaultStatus) : (s.raiseFault f).keys = s.keys := rfl
@[simp] theorem State.raiseFault_fault (s : State) (f : FaultStatus) : (s.raiseFault f).fault = f := rfl
@[simp] theorem State.raiseFault_out (s : State) (f : FaultStatus) : (s.raiseFault f).out = Outputs.clear := rfl
@[simp] theorem State.raiseFault_draws (s : State) (f : FaultStatus) : (s.raiseFault f).draws = s.draws := rfl
@[simp] theorem State.raiseFault_params (s : State) (f : FaultStatus) : (s.raiseFault f).params = s.params := rfl

/-! ### clearOutputs -/

@[simp] theorem State.clearOutputs_mem (s : State) : (s.clearOutputs).mem = s.mem := rfl
@[simp] theorem State.clearOutputs_v (s : State) : (s.clearOutputs).v = s.v := rfl
@[simp] theorem State.clearOutputs_i (s : State) : (s.clearOutputs).i = s.i := rfl
@[simp] theorem State.clearOutputs_pc (s : State) : (s.clearOutputs).pc = s.pc := rfl
@[simp] theorem State.clearOutputs_stack (s : State) : (s.clearOutputs).stack = s.stack := rfl
@[simp] theorem State.clearOutputs_sp (s : State) : (s.clearOutputs).sp = s.sp := rfl
@[simp] theorem State.clearOutputs_dt (s : State) : (s.clearOutputs).dt = s.dt := rfl
@[simp] theorem State.clearOutputs_st (s : State) : (s.clearOutputs).st = s.st := rfl
@[simp] theorem State.clearOutputs_fb (s : State) : (s.clearOutputs).fb = s.fb := rfl
@[simp] theorem State.clearOutputs_keys (s : State) : (s.clearOutputs).keys = s.keys := rfl
@[simp] theorem State.clearOutputs_fault (s : State) : (s.clearOutputs).fault = s.fault := rfl
@[simp] theorem State.clearOutputs_out (s : State) : (s.clearOutputs).out = Outputs.clear := rfl
@[simp] theorem State.clearOutputs_draws (s : State) : (s.clearOutputs).draws = s.draws := rfl
@[simp] theorem State.clearOutputs_params (s : State) : (s.clearOutputs).params = s.params := rfl

/-! ### block -/

@[simp] theorem State.block_mem (s : State) : (s.block).mem = s.mem := rfl
@[simp] theorem State.block_v (s : State) : (s.block).v = s.v := rfl
@[simp] theorem State.block_i (s : State) : (s.block).i = s.i := rfl
@[simp] theorem State.block_pc (s : State) : (s.block).pc = s.pc := rfl
@[simp] theorem State.block_stack (s : State) : (s.block).stack = s.stack := rfl
@[simp] theorem State.block_sp (s : State) : (s.block).sp = s.sp := rfl
@[simp] theorem State.block_dt (s : State) : (s.block).dt = s.dt := rfl
@[simp] theorem State.block_st (s : State) : (s.block).st = s.st := rfl
@[simp] theorem State.block_fb (s : State) : (s.block).fb = s.fb := rfl
@[simp] theorem State.block_keys (s : State) : (s.block).keys = s.keys := rfl
@[simp] theorem State.block_fault (s : State) : (s.block).fault = s.fault := rfl
@[simp] theorem State.block_out (s : State) : (s.block).out = { s.out with blocked := true } := rfl
@[simp] theorem State.block_draws (s : State) : (s.block).draws = s.draws := rfl
@[simp] theorem State.block_params (s : State) : (s.block).params = s.params := rfl

/-! ### setKeys -/

@[simp] theorem State.setKeys_mem (s : State) (k : Vector Bool 16) : (s.setKeys k).mem = s.mem := rfl
@[simp] theorem State.setKeys_v (s : State) (k : Vector Bool 16) : (s.setKeys k).v = s.v := rfl
@[simp] theorem State.setKeys_i (s : State) (k : Vector Bool 16) : (s.setKeys k).i = s.i := rfl
@[simp] theorem State.setKeys_pc (s : State) (k : Vector Bool 16) : (s.setKeys k).pc = s.pc := rfl
@[simp] theorem State.setKeys_stack (s : State) (k : Vector Bool 16) : (s.setKeys k).stack = s.stack := rfl
@[simp] theorem State.setKeys_sp (s : State) (k : Vector Bool 16) : (s.setKeys k).sp = s.sp := rfl
@[simp] theorem State.setKeys_dt (s : State) (k : Vector Bool 16) : (s.setKeys k).dt = s.dt := rfl
@[simp] theorem State.setKeys_st (s : State) (k : Vector Bool 16) : (s.setKeys k).st = s.st := rfl
@[simp] theorem State.setKeys_fb (s : State) (k : Vector Bool 16) : (s.setKeys k).fb = s.fb := rfl
@[simp] theorem State.setKeys_keys (s : State) (k : Vector Bool 16) : (s.setKeys k).keys = k := rfl
@[simp] theorem State.setKeys_fault (s : State) (k : Vector Bool 16) : (s.setKeys k).fault = s.fault := rfl
@[simp] theorem State.setKeys_out (s : State) (k : Vector Bool 16) : (s.setKeys k).out = s.out := rfl
@[simp] theorem State.setKeys_draws (s : State) (k : Vector Bool 16) : (s.setKeys k).draws = s.draws := rfl
@[simp] theorem State.setKeys_params (s : State) (k : Vector Bool 16) : (s.setKeys k).params = s.params := rfl

/-! ### tick -/

@[simp] theorem tick_mem (s : State) : (tick s).mem = s.mem := rfl
@[simp] theorem tick_v (s : State) : (tick s).v = s.v := rfl
@[simp] theorem tick_i (s : State) : (tick s).i = s.i := rfl
@[simp] theorem tick_pc (s : State) : (tick s).pc = s.pc := rfl
@[simp] theorem tick_stack (s : State) : (tick s).stack = s.stack := rfl
@[simp] theorem tick_sp (s : State) : (tick s).sp = s.sp := rfl
@[simp] theorem tick_dt (s : State) : (tick s).dt = timerDown s.dt := rfl
@[simp] theorem tick_st (s : State) : (tick s).st = timerDown s.st := rfl
@[simp] theorem tick_fb (s : State) : (tick s).fb = s.fb := rfl
@[simp] theorem tick_keys (s : State) : (tick s).keys = s.keys := rfl
@[simp] theorem tick_fault (s : State) : (tick s).fault = s.fault := rfl
@[simp] theorem tick_out (s : State) : (tick s).out = { s.out with tone := s.out.tone || decide (s.st = 1) } := rfl
@[simp] theorem tick_draws (s : State) : (tick s).draws = s.draws := rfl
@[simp] theorem tick_params (s : State) : (tick s).params = s.params := rfl

/-! ### skipIf -/

@[simp] theorem State.skipIf_pc (s : State) (c : Bool) : (s.skipIf c).pc = s.pc + (if c then 4 else 2) := by
  cases c <;> rfl

@[simp] theorem State.skipIf_mem (s : State) (c : Bool) : (s.skipIf c).mem = s.mem := by cases c <;> rfl
@[simp] theorem State.skipIf_v (s : State) (c : Bool) : (s.skipIf c).v = s.v := by cases c <;> rfl
@[simp] theorem State.skipIf_i (s : State) (c : Bool) : (s.skipIf c).i = s.i := by cases c <;> rfl
@[simp] theorem State.skipIf_stack (s : State) (c : Bool) : (s.skipIf c).stack = s.stack := by cases c <;> rfl
@[simp] theorem State.skipIf_sp (s : State) (c : Bool) : (s.skipIf c).sp = s.sp := by cases c <;> rfl
@[simp] theorem State.skipIf_dt (s : State) (c : Bool) : (s.skipIf c).dt = s.dt := by cases c <;> rfl
@[simp] theorem State.skipIf_st (s : State) (c : Bool) : (s.skipIf c).st = s.st := by cases c <;> rfl
@[simp] theorem State.skipIf_fb (s : State) (c : Bool) : (s.skipIf c).fb = s.fb := by cases c <;> rfl
@[simp] theorem State.skipIf_keys (s : State) (c : Bool) : (s.skipIf c).keys = s.keys := by cases c <;> rfl
@[simp] theorem State.skipIf_fault (s : State) (c : Bool) : (s.skipIf c).fault = s.fault := by cases c <;> rfl
@[simp] theorem State.skipIf_out (s : State) (c : Bool) : (s.skipIf c).out = s.out := by cases c <;> rfl
@[simp] theorem State.skipIf_draws (s : State) (c : Bool) : (s.skipIf c).draws = s.draws := by cases c <;> rfl
@[simp] theorem State.skipIf_params (s : State) (c : Bool) : (s.skipIf c).params = s.params := by cases c <;> rfl

/-! ### Registers read back -/

theorem State.getV_eq (s : State) (x : Reg) : s.getV x = s.v[x.val] := rfl

@[simp] theorem State.getV_setV_self (s : State) (x : Reg) (b : Byte) : (s.setV x b).getV x = b := by
  simp [State.getV_eq]

theorem State.getV_setV_of_ne (s : State) {x r : Reg} (b : Byte) (h : r ≠ x) : (s.setV x b).getV r = s.getV r := by
  have : x.val ≠ r.val := fun e => h (Fin.ext e.symm)
  simp [State.getV_eq, Vector.getElem_set_ne, this]

/-- A register after `V[x] <- b`. -/
theorem State.getV_setV (s : State) (x r : Reg) (b : Byte) :
    (s.setV x b).getV r = if r = x then b else s.getV r := by
  split
  · next h => subst h; simp
  · next h => exact s.getV_setV_of_ne b h

/-- VF is register 15 (R20), the spelling the claims use. -/
theorem regF_eq : regF = 15 := rfl

/-- A register after `V[x] <- b; V[0xF] <- f`: the flag wins when x is 15 (R22). -/
theorem State.getV_setVF (s : State) (x r : Reg) (b f : Byte) :
    (s.setVF x b f).getV r = if r = 15 then f else if r = x then b else s.getV r := by
  rw [← regF_eq, State.setVF, State.getV_setV, State.getV_setV]

/-- `getV` depends on the register file only. -/
theorem State.getV_congr {s t : State} (h : s.v = t.v) (r : Reg) : s.getV r = t.getV r := by
  simp [State.getV, h]

/-- A stack entry after `STACK[i] <- a`. -/
theorem stack_get_set (st : Vector Word 16) (i : Nat) (a : Word) (h : i < 16) (k : Fin 16) :
    (st.set i a h).get k = if k.val = i then a else st.get k := by
  show (st.set i a h)[k.val] = _
  rw [Vector.getElem_set]
  simp only [eq_comm]
  rfl

/-! ### Faulted -/

theorem State.faulted_iff (s : State) : s.faulted = true ↔ s.fault.cause ≠ .noFault := by simp [State.faulted]

theorem State.not_faulted_iff (s : State) : s.faulted = false ↔ s.fault.cause = .noFault := by simp [State.faulted]

@[simp] theorem State.clearOutputs_faulted (s : State) : s.clearOutputs.faulted = s.faulted := rfl

@[simp] theorem State.clearOutputs_getV (s : State) (r : Reg) : s.clearOutputs.getV r = s.getV r := rfl

end Sys2Proof.Machine
end

