-- ==== Sys2Proof/Laws/Display.lean ====
section
/-! SUPPORT. What drawing a sprite does to each pixel, and when it hits: no pixel is toggled twice (44_display.md
R126 (a)), so a pixel after the draw is the pixel before, XOR the sprite's bit there. -/

namespace Sys2Proof.Machine

theorem FrameBuffer.pixel_eq (fb : FrameBuffer) (x : Fin 64) (y : Fin 32) : fb.pixel x y = (fb[x.val])[y.val] := rfl

/-- The pixels after one toggle. -/
theorem FrameBuffer.pixel_toggle (fb : FrameBuffer) (x px : Fin 64) (y py : Fin 32) :
    (fb.toggle x y).pixel px py = if px = x ∧ py = y then !(fb.pixel px py) else fb.pixel px py := by
  show ((fb.set x.val ((fb[x.val]).set y.val (!(fb[x.val][y.val])) y.isLt) x.isLt)[px.val])[py.val] = _
  rw [FrameBuffer.pixel_eq]
  by_cases hx : px = x
  · subst hx
    by_cases hy : py = y
    · subst hy
      simp
    · have : y.val ≠ py.val := fun e => hy (Fin.ext e.symm)
      simp [hy, this]
  · have : x.val ≠ px.val := fun e => hx (Fin.ext e.symm)
    simp [hx, this]

/-- Two frame buffers with the same pixels are equal. -/
theorem FrameBuffer.ext_pixel {a b : FrameBuffer} (h : ∀ x y, a.pixel x y = b.pixel x y) : a = b := by
  apply Vector.ext
  intro x hx
  apply Vector.ext
  intro y hy
  exact h ⟨x, hx⟩ ⟨y, hy⟩

/-- How many columns right of column x0 pixel column px lies, wrapping. -/
def columnOf (x0 : Nat) (px : Fin 64) : Nat := (px.val + 64 - x0 % 64) % 64

/-- How many rows below row y0 pixel row py lies, wrapping. -/
def rowOf (y0 : Nat) (py : Fin 32) : Nat := (py.val + 32 - y0 % 32) % 32

theorem wrapX_eq_iff (x0 c : Nat) (hc : c < 64) (px : Fin 64) : px = wrapX (x0 + c) ↔ columnOf x0 px = c := by
  have := px.isLt
  rw [Fin.ext_iff]
  show px.val = (x0 + c) % 64 ↔ (px.val + 64 - x0 % 64) % 64 = c
  omega

theorem wrapY_eq_iff (y0 r : Nat) (hr : r < 32) (py : Fin 32) : py = wrapY (y0 + r) ↔ rowOf y0 py = r := by
  have := py.isLt
  rw [Fin.ext_iff]
  show py.val = (y0 + r) % 32 ↔ (py.val + 32 - y0 % 32) % 32 = r
  omega

/-- The first k bits of a sprite row at screen row y: each pixel, and whether one was lit where a bit is set. -/
theorem drawRow_prefix (x0 y : Nat) (row : Byte) (p : FrameBuffer × Bool) (k : Nat) (hk : k ≤ 8) :
    (∀ px py, ((List.range k).foldl (drawBit x0 y row) p).1.pixel px py =
      (p.1.pixel px py ^^ (decide (py = wrapY y) && decide (columnOf x0 px < k) && row.getLsbD (7 - columnOf x0 px)))) ∧
    (((List.range k).foldl (drawBit x0 y row) p).2 = true ↔
      p.2 = true ∨ ∃ px, p.1.pixel px (wrapY y) = true ∧ columnOf x0 px < k ∧ row.getLsbD (7 - columnOf x0 px) = true) := by
  induction k with
  | zero => simp
  | succ k ih =>
    obtain ⟨ihp, ihh⟩ := ih (by omega)
    rw [List.range_succ, List.foldl_append, List.foldl_cons, List.foldl_nil]
    generalize (List.range k).foldl (drawBit x0 y row) p = q at ihp ihh
    have hcol : ∀ px, px = wrapX (x0 + k) ↔ columnOf x0 px = k := wrapX_eq_iff x0 k (by omega)
    unfold drawBit
    by_cases hbit : row.getLsbD (7 - k) = true
    · rw [if_pos hbit]
      constructor
      · intro px py
        rw [FrameBuffer.pixel_toggle, ihp]
        by_cases hy : py = wrapY y
        · by_cases hx : columnOf x0 px = k
          · rw [if_pos ⟨(hcol px).2 hx, hy⟩]
            simp [hy, hx, hbit]
          · rw [if_neg (fun h => hx ((hcol px).1 h.1))]
            have : columnOf x0 px < k + 1 ↔ columnOf x0 px < k := by omega
            simp [hy, this]
        · rw [if_neg (fun h => hy h.2)]
          simp [hy]
      · rw [Bool.or_eq_true, ihh, ihp]
        have hself : columnOf x0 (wrapX (x0 + k)) = k := (hcol _).1 rfl
        rw [hself]
        constructor
        · rintro ((h | ⟨px, h1, h2, h3⟩) | h)
          · exact .inl h
          · exact .inr ⟨px, h1, by omega, h3⟩
          · simp at h
            exact .inr ⟨wrapX (x0 + k), h, by omega, by rw [hself]; exact hbit⟩
        · rintro (h | ⟨px, h1, h2, h3⟩)
          · exact .inl (.inl h)
          · by_cases hx : columnOf x0 px = k
            · right
              rw [(hcol px).2 hx] at h1
              simp [h1]
            · exact .inl (.inr ⟨px, h1, by omega, h3⟩)
    · rw [if_neg hbit]
      constructor
      · intro px py
        rw [ihp]
        by_cases hx : columnOf x0 px = k
        · simp [hx, hbit]
        · have : columnOf x0 px < k + 1 ↔ columnOf x0 px < k := by omega
          simp [this]
      · rw [ihh]
        constructor
        · rintro (h | ⟨px, h1, h2, h3⟩)
          · exact .inl h
          · exact .inr ⟨px, h1, by omega, h3⟩
        · rintro (h | ⟨px, h1, h2, h3⟩)
          · exact .inl h
          · have hx : columnOf x0 px ≠ k := fun e => hbit (by rw [← e]; exact h3)
            exact .inr ⟨px, h1, by omega, h3⟩

/-- The bit a list of sprite rows drawn at (x0, y0) sets at a pixel. -/
def bitAt (x0 y0 : Nat) (rows : List Byte) (px : Fin 64) (py : Fin 32) : Bool :=
  decide (columnOf x0 px < 8) && decide (rowOf y0 py < rows.length) &&
    (rows.getD (rowOf y0 py) 0).getLsbD (7 - columnOf x0 px)

theorem bitAt_cons (x0 y : Nat) (row : Byte) (rows : List Byte) (h : rows.length < 32) (px : Fin 64) (py : Fin 32) :
    bitAt x0 y (row :: rows) px py =
      (bitAt x0 (y + 1) rows px py ||
        (decide (py = wrapY y) && decide (columnOf x0 px < 8) && row.getLsbD (7 - columnOf x0 px))) := by
  have hlt := py.isLt
  have h0 : py = wrapY y ↔ rowOf y py = 0 := by simpa using wrapY_eq_iff y 0 (by omega) py
  unfold bitAt
  rw [List.length_cons]
  by_cases hy : rowOf y py = 0
  · have h1 : rowOf (y + 1) py = 31 := by unfold rowOf at *; omega
    have h2 : ¬ rowOf (y + 1) py < rows.length := by omega
    have h3 : py = wrapY y := h0.2 hy
    rw [hy, List.getD_cons_zero]
    rw [decide_eq_false h2, decide_eq_true h3]
    simp
  · have h1 : rowOf y py = rowOf (y + 1) py + 1 := by unfold rowOf at *; omega
    have h2 : ¬ py = wrapY y := fun e => hy (h0.1 e)
    rw [h1]
    simp only [h2, List.getD_cons_succ]
    simp

/-- A sprite of at most 32 rows: every pixel is XORed with the sprite's bit there, and the draw hits exactly when a
set bit lands on a lit pixel (R122, R125, R126 (a)). -/
theorem drawRows_spec (x0 y : Nat) (rows : List Byte) (p : FrameBuffer × Bool) (h : rows.length ≤ 32) :
    (∀ px py, (drawRows x0 y rows p).1.pixel px py = (p.1.pixel px py ^^ bitAt x0 y rows px py)) ∧
    ((drawRows x0 y rows p).2 = true ↔
      p.2 = true ∨ ∃ px py, p.1.pixel px py = true ∧ bitAt x0 y rows px py = true) := by
  induction rows generalizing y p with
  | nil => simp [drawRows, bitAt]
  | cons row rows ih =>
    rw [List.length_cons] at h
    obtain ⟨rowp, rowh⟩ := drawRow_prefix x0 y row p 8 (le_refl 8)
    change (∀ px py, (drawRow x0 y row p).1.pixel px py = _) at rowp
    change ((drawRow x0 y row p).2 = true ↔ _) at rowh
    obtain ⟨ihp, ihh⟩ := ih (y + 1) (drawRow x0 y row p) (by omega)
    rw [drawRows]
    generalize drawRow x0 y row p = q at *
    have disjoint : ∀ px py, py = wrapY y → bitAt x0 (y + 1) rows px py = false := by
      intro px py hy
      have hlt := py.isLt
      have h0 : rowOf y py = 0 := by simpa using (wrapY_eq_iff y 0 (by omega) py).1 hy
      have h1 : ¬ rowOf (y + 1) py < rows.length := by unfold rowOf at *; omega
      simp [bitAt, h1]
    constructor
    · intro px py
      rw [ihp, rowp, bitAt_cons x0 y row rows (by omega)]
      by_cases hy : py = wrapY y
      · rw [disjoint px py hy]
        simp
      · simp [hy]
    · rw [ihh, rowh]
      constructor
      · rintro ((h | ⟨px, h1, h2, h3⟩) | ⟨px, py, h1, h2⟩)
        · exact .inl h
        · exact .inr ⟨px, wrapY y, h1, by rw [bitAt_cons x0 y row rows (by omega)]; simp [h2, h3]⟩
        · have hy : ¬ py = wrapY y := fun e => by rw [disjoint px py e] at h2; exact absurd h2 (by decide)
          rw [rowp] at h1
          exact .inr ⟨px, py, by simpa [hy] using h1, by rw [bitAt_cons x0 y row rows (by omega), h2]; rfl⟩
      · rintro (h | ⟨px, py, h1, h2⟩)
        · exact .inl (.inl h)
        · rw [bitAt_cons x0 y row rows (by omega)] at h2
          by_cases hy : py = wrapY y
          · subst hy
            rw [disjoint px _ rfl] at h2
            simp at h2
            exact .inl (.inr ⟨px, h1, h2.1, h2.2⟩)
          · exact .inr ⟨px, py, by rw [rowp]; simpa [hy] using h1, by simpa [hy] using h2⟩

/-- The bit of the sprite `DXYN` reads from memory, as the claims spell it. -/
theorem bitAt_memory (s : State) (x y : Reg) (n : Nibble) (px : Fin 64) (py : Fin 32) :
    bitAt (s.getV x).toNat (s.getV y).toNat ((List.range n.toNat).map fun k => Memory.read s.mem (s.i.toNat + k)) px py =
      spriteBit s x y n px py := by
  unfold bitAt spriteBit
  rw [List.length_map, List.length_range]
  show (decide (columnOf _ px < 8) && decide (rowOf _ py < n.toNat) && _) =
    (decide (columnOf _ px < 8) && decide (rowOf _ py < n.toNat) && _)
  by_cases h : rowOf (s.getV y).toNat py < n.toNat
  · congr 2
    simp [h]
    rfl
  · simp [h]

end Sys2Proof.Machine
end

