-- ==== Sys2Proof/Laws/Memory.lean ====
section
/-! SUPPORT. The laws of memory: a read after a write, and that every operation keeps the canonical form. -/

namespace Sys2Proof.Machine

@[simp] theorem Memory.read_nil (a : Nat) : Memory.read [] a = Memory.unlisted a := rfl

theorem Memory.read_cons (k : Nat) (b : Byte) (m : Memory) (a : Nat) :
    Memory.read ((k, b) :: m) a = if k = a then b else Memory.read m a := rfl

/-- The parts of the canonical form of a list with a first entry. -/
theorem Memory.wf_cons (k : Nat) (b : Byte) (m : Memory) :
    Memory.wf ((k, b) :: m) = true ↔
      k < memSize ∧ b ≠ Memory.unlisted k ∧ (∀ c ∈ m, k < c.1) ∧ Memory.wf m = true := by
  simp [Memory.wf, and_assoc]

/-- An address below every listed one reads as unlisted. -/
theorem Memory.read_of_lt_all {m : Memory} {a : Nat} (h : ∀ c ∈ m, a < c.1) :
    Memory.read m a = Memory.unlisted a := by
  induction m with
  | nil => rfl
  | cons e m ih =>
    obtain ⟨k, b⟩ := e
    have hk : a < k := h (k, b) (by simp)
    rw [Memory.read_cons, if_neg (by omega)]
    exact ih fun c hc => h c (by simp [hc])

/-! ### insert -/

theorem Memory.read_insert (m : Memory) (a : Nat) (v : Byte) (x : Nat) :
    Memory.read (Memory.insert a v m) x = if x = a then v else Memory.read m x := by
  induction m with
  | nil => simp [Memory.insert, Memory.read_cons, eq_comm]
  | cons e m ih =>
    obtain ⟨k, b⟩ := e
    unfold Memory.insert
    split
    · simp [Memory.read_cons, eq_comm]
    · split
      · next h =>
        subst h
        rw [Memory.read_cons, Memory.read_cons]
        by_cases hx : a = x
        · rw [if_pos hx, if_pos hx.symm]
        · rw [if_neg hx, if_neg hx, if_neg (fun e => hx e.symm)]
      · next h =>
        rw [Memory.read_cons, Memory.read_cons, ih]
        by_cases hk : k = x
        · rw [if_pos hk, if_pos hk, if_neg (fun e => h (e.symm.trans hk.symm))]
        · rw [if_neg hk, if_neg hk]

theorem Memory.mem_insert {m : Memory} {a : Nat} {v : Byte} {c : Host.Cell} (h : c ∈ Memory.insert a v m) :
    c.1 = a ∨ c ∈ m := by
  induction m with
  | nil => left; simp [Memory.insert] at h; simp [h]
  | cons e m ih =>
    obtain ⟨k, b⟩ := e
    unfold Memory.insert at h
    split at h
    · rcases List.mem_cons.1 h with rfl | h
      · exact .inl rfl
      · exact .inr h
    · split at h
      · rcases List.mem_cons.1 h with rfl | h
        · exact .inl rfl
        · exact .inr (by simp [h])
      · rcases List.mem_cons.1 h with rfl | h
        · exact .inr (by simp)
        · rcases ih h with h | h
          · exact .inl h
          · exact .inr (by simp [h])

theorem Memory.wf_insert {m : Memory} {a : Nat} {v : Byte} (hm : Memory.wf m = true) (ha : a < memSize)
    (hv : v ≠ Memory.unlisted a) : Memory.wf (Memory.insert a v m) = true := by
  induction m with
  | nil => rw [Memory.insert, Memory.wf_cons]; exact ⟨ha, hv, by simp, rfl⟩
  | cons e m ih =>
    obtain ⟨k, b⟩ := e
    have h := (Memory.wf_cons k b m).1 hm
    obtain ⟨hk, hb, hall, hwf⟩ := h
    unfold Memory.insert
    split
    · next hlt =>
      rw [Memory.wf_cons]
      refine ⟨ha, hv, ?_, hm⟩
      intro c hc
      rcases List.mem_cons.1 hc with rfl | hc
      · exact hlt
      · exact lt_trans hlt (hall c hc)
    · split
      · next h => subst h; exact (Memory.wf_cons a v m).2 ⟨ha, hv, hall, hwf⟩
      · next hlt hne =>
        rw [Memory.wf_cons]
        refine ⟨hk, hb, ?_, ih hwf⟩
        intro c hc
        rcases Memory.mem_insert hc with h | h
        · omega
        · exact hall c h

/-! ### erase -/

theorem Memory.read_erase (m : Memory) (a x : Nat) :
    Memory.read (Memory.erase a m) x = if x = a then Memory.unlisted a else Memory.read m x := by
  induction m with
  | nil =>
    simp only [Memory.erase, Memory.read_nil]
    split
    · next h => rw [h]
    · rfl
  | cons e m ih =>
    obtain ⟨k, b⟩ := e
    unfold Memory.erase
    split
    · next h =>
      subst h
      rw [ih, Memory.read_cons]
      split
      · rfl
      · next hx => rw [if_neg (fun e => hx e.symm)]
    · next h =>
      rw [Memory.read_cons, Memory.read_cons, ih]
      by_cases hk : k = x
      · rw [if_pos hk, if_pos hk, if_neg (fun e => h (hk.trans e))]
      · rw [if_neg hk, if_neg hk]

theorem Memory.mem_erase {m : Memory} {a : Nat} {c : Host.Cell} (h : c ∈ Memory.erase a m) : c ∈ m := by
  induction m with
  | nil => exact h
  | cons e m ih =>
    obtain ⟨k, b⟩ := e
    unfold Memory.erase at h
    split at h
    · exact List.mem_cons_of_mem _ (ih h)
    · rcases List.mem_cons.1 h with rfl | h
      · simp
      · exact List.mem_cons_of_mem _ (ih h)

theorem Memory.wf_erase {m : Memory} (a : Nat) (hm : Memory.wf m = true) : Memory.wf (Memory.erase a m) = true := by
  induction m with
  | nil => rfl
  | cons e m ih =>
    obtain ⟨k, b⟩ := e
    obtain ⟨hk, hb, hall, hwf⟩ := (Memory.wf_cons k b m).1 hm
    unfold Memory.erase
    split
    · exact ih hwf
    · exact (Memory.wf_cons k b _).2 ⟨hk, hb, fun c hc => hall c (Memory.mem_erase hc), ih hwf⟩

/-! ### write -/

/-- Every byte after a write: the one written, and every other as before. -/
theorem Memory.read_write (m : Memory) (a : Nat) (v : Byte) (x : Nat) :
    Memory.read (Memory.write m a v) x = if x = a then v else Memory.read m x := by
  unfold Memory.write
  split
  · next h => rw [Memory.read_erase, h]
  · exact Memory.read_insert m a v x

/-- A write to an address that exists keeps the canonical form. -/
theorem Memory.wf_write {m : Memory} {a : Nat} (v : Byte) (hm : Memory.wf m = true) (ha : a < memSize) :
    Memory.wf (Memory.write m a v) = true := by
  unfold Memory.write
  split
  · exact Memory.wf_erase a hm
  · next h => exact Memory.wf_insert hm ha h

/-- Consecutive writes inside memory keep the canonical form. -/
theorem Memory.wf_writeList {m : Memory} {a : Nat} (bs : List Byte) (hm : Memory.wf m = true)
    (ha : a + bs.length ≤ memSize) : Memory.wf (Memory.writeList m a bs) = true := by
  induction bs generalizing m a with
  | nil => exact hm
  | cons b bs ih =>
    rw [List.length_cons] at ha
    exact ih (Memory.wf_write b hm (by omega)) (by omega)

/-- Every byte after consecutive writes: the listed ones, and every other as before. -/
theorem Memory.read_writeList (m : Memory) (a : Nat) (bs : List Byte) (x : Nat) :
    Memory.read (Memory.writeList m a bs) x =
      if a ≤ x ∧ x < a + bs.length then bs.getD (x - a) 0 else Memory.read m x := by
  induction bs generalizing m a with
  | nil => rw [if_neg (by simp)]; rfl
  | cons b bs ih =>
    rw [Memory.writeList, ih, Memory.read_write, List.length_cons]
    by_cases h1 : x = a
    · subst h1
      rw [if_neg (by omega), if_pos rfl, if_pos (by omega)]
      simp
    · by_cases h2 : a + 1 ≤ x ∧ x < a + 1 + bs.length
      · rw [if_pos h2, if_pos (by omega)]
        obtain ⟨j, hj⟩ : ∃ j, x - a = j + 1 := ⟨x - a - 1, by omega⟩
        rw [hj, List.getD_cons_succ]
        congr 1
        omega
      · rw [if_neg h2, if_neg h1, if_neg (by omega)]

/-! ### Equal reads, equal memories -/

/-- The first entry of a canonical memory does not read as unlisted. -/
theorem Memory.read_head_ne {k : Nat} {b : Byte} {m : Memory} (hm : Memory.wf ((k, b) :: m) = true) :
    Memory.read ((k, b) :: m) k ≠ Memory.unlisted k := by
  obtain ⟨_, hb, _, _⟩ := (Memory.wf_cons k b m).1 hm
  simpa [Memory.read_cons] using hb

/-- Below its first entry a canonical memory reads as unlisted. -/
theorem Memory.read_below_head {k a : Nat} {b : Byte} {m : Memory} (hm : Memory.wf ((k, b) :: m) = true) (h : a < k) :
    Memory.read ((k, b) :: m) a = Memory.unlisted a := by
  obtain ⟨_, _, hall, _⟩ := (Memory.wf_cons k b m).1 hm
  apply Memory.read_of_lt_all
  intro c hc
  rcases List.mem_cons.1 hc with rfl | hc
  · exact h
  · exact lt_trans h (hall c hc)

end Sys2Proof.Machine
end

