-- ==== Sys2Proof/Laws/Ops.lean ====
section
/-! SUPPORT. What each shared operation can do, said once: memory access, the call stack, register lists, key indexes,
and the end of a step. -/

namespace Sys2Proof.Machine

/-! ### completeOrRaise -/

/-- A meaning that completes or raises always answers a next state: the completed one, or the state before with the
fault latched. -/
theorem completeOrRaise_cases (s : State) (r : Except FaultStatus State) :
    (∃ t, r = .ok t ∧ completeOrRaise s r = .next t) ∨
      (∃ f, r = .error f ∧ completeOrRaise s r = .next (s.raiseFault f)) := by
  cases r with
  | ok t => exact .inl ⟨t, rfl, rfl⟩
  | error f => exact .inr ⟨f, rfl, rfl⟩

/-! ### Reading memory -/

theorem memRead_ok {a : Nat} (s : State) (h : a ≤ 0xFFF) : memRead a s = .ok (Memory.read s.mem a) := by
  rw [memRead, if_neg (by omega)]

theorem memRead_error {a : Nat} (s : State) (h : 0xFFF < a) : memRead a s = .error ⟨.memOob, a⟩ := by
  rw [memRead, if_pos h]

/-- Inside memory the bytes are those at a, a + 1, and so on. -/
theorem readBytes_ok {a n : Nat} (s : State) (h : n = 0 ∨ a + n ≤ 0x1000) :
    readBytes a n s = .ok ((List.range n).map fun k => Memory.read s.mem (a + k)) := by
  induction n generalizing a with
  | zero => rfl
  | succ n ih =>
    have ha : a + (n + 1) ≤ 0x1000 := by omega
    rw [readBytes, memRead_ok s (by omega), ih (by omega), List.range_succ_eq_map, List.map_cons, List.map_map]
    show Except.ok _ = Except.ok _
    congr 2
    apply List.map_congr_left
    intro k _
    show Memory.read s.mem (a + 1 + k) = Memory.read s.mem (a + (k + 1))
    congr 1
    omega

/-- Past the end of memory the fault names the first address above 0xFFF (R121, R122). -/
theorem readBytes_error {a n : Nat} (s : State) (h0 : 0 < n) (h : 0x1000 < a + n) :
    readBytes a n s = .error ⟨.memOob, max a 0x1000⟩ := by
  induction n generalizing a with
  | zero => omega
  | succ n ih =>
    by_cases ha : a ≤ 0xFFF
    · rw [readBytes, memRead_ok s ha, ih (by omega) (by omega)]
      show Except.error _ = _
      rw [show max (a + 1) 0x1000 = max a 0x1000 by omega]
    · rw [readBytes, memRead_error s (by omega), show max a 0x1000 = a by omega]

/-! ### Writing memory -/

theorem memWrite_ok {c : Config} {a : Nat} (b : Byte) (s : State) (h : a ≤ 0xFFF)
    (hr : c.reservedWriteFault = true → programBase ≤ a) :
    memWrite c a b s = .ok { s with mem := Memory.write s.mem a b } := by
  rw [memWrite, if_neg (by omega), if_neg (fun hc => by have := hr hc.2; omega)]

theorem memWrite_oob {c : Config} {a : Nat} (b : Byte) (s : State) (h : 0xFFF < a) :
    memWrite c a b s = .error ⟨.memOob, a⟩ := by
  rw [memWrite, if_pos h]

theorem memWrite_reserved {c : Config} {a : Nat} (b : Byte) (s : State) (h : a < programBase)
    (hr : c.reservedWriteFault = true) : memWrite c a b s = .error ⟨.reservedWrite, a⟩ := by
  rw [memWrite, if_neg (by rw [programBase] at h; omega), if_pos ⟨h, hr⟩]

/-- Inside memory and outside the reserved range every byte is written. -/
theorem writeBytes_ok {c : Config} {a : Nat} {bs : List Byte} (s : State) (h : a + bs.length ≤ 0x1000)
    (hr : c.reservedWriteFault = true → programBase ≤ a) :
    writeBytes c a bs s = .ok { s with mem := Memory.writeList s.mem a bs } := by
  induction bs generalizing a s with
  | nil => rfl
  | cons b bs ih =>
    rw [List.length_cons] at h
    rw [writeBytes, memWrite_ok b s (by omega) hr]
    exact ih _ (by omega) fun hc => by have := hr hc; omega

/-- A store that starts in the reserved range faults at its first byte (R119, R120). -/
theorem writeBytes_reserved {c : Config} {a : Nat} {bs : List Byte} (s : State) (h0 : bs ≠ []) (h : a < programBase)
    (hr : c.reservedWriteFault = true) : writeBytes c a bs s = .error ⟨.reservedWrite, a⟩ := by
  cases bs with
  | nil => exact absurd rfl h0
  | cons b bs => rw [writeBytes, memWrite_reserved b s h hr]

/-- A store past the end of memory faults at the first address above 0xFFF (R119, R120). -/
theorem writeBytes_oob {c : Config} {a : Nat} {bs : List Byte} (s : State) (h0 : bs ≠ [])
    (h : 0x1000 < a + bs.length) (hr : c.reservedWriteFault = true → programBase ≤ a) :
    writeBytes c a bs s = .error ⟨.memOob, max a 0x1000⟩ := by
  induction bs generalizing a s with
  | nil => exact absurd rfl h0
  | cons b bs ih =>
    rw [List.length_cons] at h
    by_cases ha : a ≤ 0xFFF
    · rw [writeBytes, memWrite_ok b s ha hr]
      have hbs : bs ≠ [] := by
        rintro rfl
        rw [List.length_nil] at h
        omega
      show writeBytes c (a + 1) bs _ = _
      rw [ih _ hbs (by omega) fun hc => by have := hr hc; omega, show max (a + 1) 0x1000 = max a 0x1000 by omega]
    · rw [writeBytes, memWrite_oob b s (by omega), show max a 0x1000 = a by omega]

/-! ### Register lists -/

/-- Loading registers changes the register file only. -/
theorem State.setVsFrom_frame (s : State) (k : Nat) (bs : List Byte) :
    s.setVsFrom k bs = { s with v := (s.setVsFrom k bs).v } := by
  induction bs generalizing s k with
  | nil => rfl
  | cons b bs ih =>
    rw [State.setVsFrom, ih]
    rfl

@[simp] theorem State.setVsFrom_mem (s : State) (k : Nat) (bs : List Byte) : (s.setVsFrom k bs).mem = s.mem := by
  rw [State.setVsFrom_frame]

@[simp] theorem State.setVsFrom_i (s : State) (k : Nat) (bs : List Byte) : (s.setVsFrom k bs).i = s.i := by
  rw [State.setVsFrom_frame]

@[simp] theorem State.setVsFrom_pc (s : State) (k : Nat) (bs : List Byte) : (s.setVsFrom k bs).pc = s.pc := by
  rw [State.setVsFrom_frame]

@[simp] theorem State.setVsFrom_stack (s : State) (k : Nat) (bs : List Byte) : (s.setVsFrom k bs).stack = s.stack := by
  rw [State.setVsFrom_frame]

@[simp] theorem State.setVsFrom_sp (s : State) (k : Nat) (bs : List Byte) : (s.setVsFrom k bs).sp = s.sp := by
  rw [State.setVsFrom_frame]

@[simp] theorem State.setVsFrom_dt (s : State) (k : Nat) (bs : List Byte) : (s.setVsFrom k bs).dt = s.dt := by
  rw [State.setVsFrom_frame]

@[simp] theorem State.setVsFrom_st (s : State) (k : Nat) (bs : List Byte) : (s.setVsFrom k bs).st = s.st := by
  rw [State.setVsFrom_frame]

@[simp] theorem State.setVsFrom_fb (s : State) (k : Nat) (bs : List Byte) : (s.setVsFrom k bs).fb = s.fb := by
  rw [State.setVsFrom_frame]

@[simp] theorem State.setVsFrom_keys (s : State) (k : Nat) (bs : List Byte) : (s.setVsFrom k bs).keys = s.keys := by
  rw [State.setVsFrom_frame]

@[simp] theorem State.setVsFrom_fault (s : State) (k : Nat) (bs : List Byte) : (s.setVsFrom k bs).fault = s.fault := by
  rw [State.setVsFrom_frame]

@[simp] theorem State.setVsFrom_out (s : State) (k : Nat) (bs : List Byte) : (s.setVsFrom k bs).out = s.out := by
  rw [State.setVsFrom_frame]

@[simp] theorem State.setVsFrom_draws (s : State) (k : Nat) (bs : List Byte) : (s.setVsFrom k bs).draws = s.draws := by
  rw [State.setVsFrom_frame]

@[simp] theorem State.setVsFrom_params (s : State) (k : Nat) (bs : List Byte) :
    (s.setVsFrom k bs).params = s.params := by
  rw [State.setVsFrom_frame]

theorem State.regsUpTo_length (s : State) (x : Reg) : (s.regsUpTo x).length = x.val + 1 := by simp [State.regsUpTo]

theorem State.regsUpTo_ne_nil (s : State) (x : Reg) : s.regsUpTo x ≠ [] := by simp [State.regsUpTo]

/-- The k-th byte of the list V0..VX is V[k]. -/
theorem State.regsUpTo_getD (s : State) {x r : Reg} (h : r ≤ x) : (s.regsUpTo x).getD r.val 0 = s.getV r := by
  have hlt : r.val < x.val + 1 := Nat.lt_succ_of_le h
  simp [State.regsUpTo, hlt]

/-- The registers after loading a list from register k upward. -/
theorem State.getV_setVsFrom (s : State) (k : Nat) (bs : List Byte) (h : k + bs.length ≤ 16) (r : Reg) :
    (s.setVsFrom k bs).getV r =
      if k ≤ r.val ∧ r.val < k + bs.length then bs.getD (r.val - k) 0 else s.getV r := by
  induction bs generalizing s k with
  | nil => rw [if_neg (by simp)]; rfl
  | cons b bs ih =>
    rw [List.length_cons] at h
    have hk : (Fin.ofNat 16 k : Reg).val = k := Nat.mod_eq_of_lt (by omega)
    rw [State.setVsFrom, ih _ _ (by omega), State.getV_setV, List.length_cons]
    by_cases h1 : r.val = k
    · have hr : r = Fin.ofNat 16 k := Fin.ext (by rw [hk, h1])
      rw [if_neg (by omega), if_pos hr, if_pos (by omega), h1]
      simp
    · have hr : r ≠ Fin.ofNat 16 k := fun e => h1 (by rw [e, hk])
      by_cases h2 : k + 1 ≤ r.val ∧ r.val < k + 1 + bs.length
      · rw [if_pos h2, if_pos (by omega)]
        obtain ⟨j, hj⟩ : ∃ j, r.val - k = j + 1 := ⟨r.val - k - 1, by omega⟩
        rw [hj, List.getD_cons_succ]
        congr 1
        omega
      · rw [if_neg h2, if_neg hr, if_neg (by omega)]

/-! ### Call stack -/

theorem State.push_ok (s : State) (a : Word) (h : s.sp.val < 16) :
    s.push a = .ok { s with stack := s.stack.set s.sp.val a h, sp := ⟨s.sp.val + 1, by omega⟩ } := by
  rw [State.push, dif_pos h]

theorem State.push_error (s : State) (a : Word) (h : s.sp = 16) : s.push a = .error ⟨.stackOverflow, 16⟩ := by
  rw [State.push, dif_neg (by rw [h]; decide)]

theorem State.pop_ok (s : State) (h : s.sp.val ≠ 0) :
    s.pop = .ok (s.stack[s.sp.val - 1]'(by omega), { s with sp := ⟨s.sp.val - 1, by omega⟩ }) := by
  rw [State.pop, dif_neg h]

theorem State.pop_error (s : State) (h : s.sp = 0) : s.pop = .error ⟨.stackUnderflow, 0⟩ := by
  rw [State.pop, dif_pos (by rw [h]; decide)]

/-! ### Key latches -/

/-- `lowestKey` finds a pressed key with no pressed key below it. -/
theorem State.lowestKey_some {s : State} {k : Reg} (h : s.lowestKey = some k) :
    s.keyPressed k = true ∧ ∀ j : Reg, j < k → s.keyPressed j = false := by
  rw [State.lowestKey, List.find?_eq_some_iff_getElem] at h
  obtain ⟨hk, n, hn, hkn, hlt⟩ := h
  refine ⟨hk, fun j hj => ?_⟩
  have hnk : n = k.val := by
    have := congrArg Fin.val hkn
    simpa using this
  have := hlt j.val (by rw [hnk]; exact hj)
  simpa using this

/-- `lowestKey` finds none exactly when no latch is set. -/
theorem State.lowestKey_none {s : State} : s.lowestKey = none ↔ ∀ k : Reg, s.keyPressed k = false := by
  rw [State.lowestKey, List.find?_eq_none]
  simp

/-! ### The end of a step -/

/-- A finished step keeps the state, or ticks it, and ticks only a state that has not faulted. -/
theorem finishStep_cases (c : Config) (s : State) :
    finishStep c s = s ∧ (s.faulted = true ∨ (s.out.blocked = true ∧ c.tickDuringStall = false)) ∨
      finishStep c s = tick s ∧ s.faulted = false ∧ (s.out.blocked = false ∨ c.tickDuringStall = true) := by
  unfold finishStep
  cases hf : s.faulted <;> cases hb : s.out.blocked <;> cases ht : c.tickDuringStall <;> simp

theorem timerDown_toNat (t : Byte) : (timerDown t).toNat = t.toNat - 1 := by
  unfold timerDown
  split
  · next h => subst h; rfl
  · next h =>
    have h0 : t.toNat ≠ 0 := fun e => h (BitVec.eq_of_toNat_eq e)
    rw [BitVec.toNat_sub]
    have := t.isLt
    simp
    omega

@[simp] theorem tick_faulted (s : State) : (tick s).faulted = s.faulted := rfl

@[simp] theorem tick_getV (s : State) (r : Reg) : (tick s).getV r = s.getV r := rfl

end Sys2Proof.Machine
end

