-- ==== Sys2Proof/Laws/Step.lean ====
section
/-! SUPPORT. Everything a step can do, said once, so that a claim over steps is a case split and not an unfolding. -/

namespace Sys2Proof.Machine

theorem fetch_eq (s : State) :
    fetch s = if 0xFFE < s.pc.toNat then .error ⟨.fetchOob, s.pc.toNat⟩ else .ok s.nextWord := rfl

/-- A step of a faulted core only clears the outputs; one of a running core faults at fetch, executes the decoded
instruction, or passes over an unrecognized word, and the last two are finished by the tick. -/
theorem step_cases {s t : State} (h : step s = .next t) :
    (s.faulted = true ∧ t = s.clearOutputs) ∨
    (s.faulted = false ∧ 0xFFE < s.pc.toNat ∧ t = s.raiseFault ⟨.fetchOob, s.pc.toNat⟩) ∨
    (s.faulted = false ∧ s.pc.toNat ≤ 0xFFE ∧ ∃ i u, decode s.nextWord = .ok i ∧ exec i s.clearOutputs = .next u ∧
      t = finishStep s.params u) ∨
    (s.faulted = false ∧ s.pc.toNat ≤ 0xFFE ∧ (∃ e, decode s.nextWord = .error e) ∧
      t = finishStep s.params s.clearOutputs.advance) := by
  cases hf : s.faulted with
  | true =>
    left
    have : step s = .next s.clearOutputs := if_pos hf
    rw [this] at h
    cases h
    exact ⟨rfl, rfl⟩
  | false =>
    right
    have hs : step s = _ := if_neg (by rw [State.clearOutputs_faulted, hf]; decide)
    rw [hs, show fetch s.clearOutputs = fetch s from rfl, fetch_eq] at h
    by_cases hp : 0xFFE < s.pc.toNat
    · rw [if_pos hp] at h
      cases h
      exact .inl ⟨rfl, hp, rfl⟩
    · rw [if_neg hp] at h
      cases hd : decode s.nextWord with
      | ok i =>
        simp only [hd] at h
        cases he : exec i s.clearOutputs with
        | next u =>
          rw [he] at h
          cases h
          exact .inr (.inl ⟨rfl, by omega, i, u, rfl, he, rfl⟩)
        | fault r => cases r
        | refused r => rw [he] at h; cases h
      | error e =>
        simp only [hd] at h
        cases h
        exact .inr (.inr ⟨rfl, by omega, ⟨e, rfl⟩, rfl⟩)

end Sys2Proof.Machine
end

