-- ==== Sys2Proof/Laws/Exec.lean ====
section
/-! SUPPORT. What each instruction that can fault does, said once: the state before with the fault latched where
`instrFault` names one, and the completed state, written out, where it names none. -/

namespace Sys2Proof.Machine

/-! ### The closed form of the fault conditions -/

theorem accessFault_none {s : State} {n : Nat} (h : accessFault s n = none) : n = 0 ∨ s.i.toNat + n ≤ 0x1000 := by
  unfold accessFault at h
  split at h
  · cases h
  · omega

theorem accessFault_some {s : State} {n : Nat} {f : FaultStatus} (h : accessFault s n = some f) :
    0 < n ∧ 0x1000 < s.i.toNat + n ∧ f = ⟨.memOob, max s.i.toNat 0x1000⟩ := by
  unfold accessFault at h
  split at h
  · next hc => cases h; exact ⟨hc.1, hc.2, rfl⟩
  · cases h

theorem storeFault_none {s : State} {n : Nat} (hn : 0 < n) (h : storeFault s n = none) :
    s.i.toNat + n ≤ 0x1000 ∧ (s.params.reservedWriteFault = true → programBase ≤ s.i.toNat) := by
  unfold storeFault at h
  split at h
  · cases h
  · next hc =>
    refine ⟨?_, fun hr => ?_⟩
    · rcases accessFault_none h with h | h <;> omega
    · by_contra hlt
      exact hc ⟨hn, by unfold programBase at hlt; omega, hr⟩

/-- A store of `bs` at `I` is in the state what `storeFault` says of its length. -/
theorem storeAtI_eq (s : State) {bs : List Byte} (hb : bs ≠ []) :
    storeAtI s.params bs s =
      match storeFault s bs.length with
      | some f => .error f
      | none => .ok { s with mem := Memory.writeList s.mem s.i.toNat bs } := by
  have hlen : 0 < bs.length := List.length_pos_iff.2 hb
  cases h : storeFault s bs.length with
  | none =>
    obtain ⟨h1, h2⟩ := storeFault_none hlen h
    exact writeBytes_ok s h1 h2
  | some f =>
    unfold storeFault at h
    split at h
    · next hc => cases h; exact writeBytes_reserved s hb hc.2.1 hc.2.2
    · next hc =>
      obtain ⟨_, h1, rfl⟩ := accessFault_some h
      refine writeBytes_oob s hb h1 fun hr => ?_
      by_contra hlt
      exact hc ⟨hlen, by unfold programBase at hlt; omega, hr⟩

/-- A read of `n` bytes at `I` is in the state what `accessFault` says of `n`. -/
theorem readBytes_eq (s : State) (n : Nat) :
    readBytes s.i.toNat n s =
      match accessFault s n with
      | some f => .error f
      | none => .ok ((List.range n).map fun k => Memory.read s.mem (s.i.toNat + k)) := by
  cases h : accessFault s n with
  | none => exact readBytes_ok s (accessFault_none h)
  | some f =>
    obtain ⟨h0, h1, rfl⟩ := accessFault_some h
    exact readBytes_error s h0 h1

theorem keyIndex_eq (s : State) (x : Reg) :
    keyIndex (s.getV x) =
      match keyFault s x with
      | some f => .error f
      | none => .ok (Fin.ofNat 16 (s.getV x).toNat) := by
  unfold keyFault keyIndex
  by_cases h : (s.getV x).toNat < 16
  · rw [dif_pos h, if_neg (by omega)]
    show Except.ok _ = Except.ok _
    congr 1
    exact Fin.ext (Nat.mod_eq_of_lt h).symm
  · rw [dif_neg h, if_pos (by omega)]

/-! ### The completed state of the instructions that can fault -/

theorem exec_ret_ok {s : State} (h : instrFault s .ret = none) :
    ∃ _ : s.sp.val ≠ 0, exec .ret s = .next { s with
      sp := ⟨s.sp.val - 1, by omega⟩, pc := s.stack[s.sp.val - 1]'(by omega) } := by
  have h0 : s.sp.val ≠ 0 := by
    intro e
    rw [show instrFault s .ret = some _ from if_pos (Fin.ext e)] at h
    cases h
  refine ⟨h0, ?_⟩
  show completeOrRaise s (s.pop.map _) = _
  rw [s.pop_ok h0]
  rfl

theorem exec_call_ok {s : State} {nnn : Addr12} (h : instrFault s (.call nnn) = none) :
    ∃ h0 : s.sp.val < 16, exec (.call nnn) s = .next { s with
      stack := s.stack.set s.sp.val (s.pc + 2) h0, sp := ⟨s.sp.val + 1, by omega⟩, pc := addr16 nnn } := by
  have h0 : s.sp.val < 16 := by
    by_contra hge
    have e : s.sp = 16 := Fin.ext (show s.sp.val = 16 by omega)
    rw [show instrFault s (.call nnn) = some _ from if_pos e] at h
    cases h
  refine ⟨h0, ?_⟩
  show completeOrRaise s ((s.push _).map _) = _
  rw [s.push_ok _ h0]
  rfl

theorem exec_skp_ok {s : State} {x : Reg} (h : instrFault s (.skp x) = none) :
    exec (.skp x) s = .next (s.skipIf (s.keyPressed (Fin.ofNat 16 (s.getV x).toNat))) := by
  show completeOrRaise s ((keyIndex _).map _) = _
  rw [keyIndex_eq, show keyFault s x = none from h]
  rfl

theorem exec_sknp_ok {s : State} {x : Reg} (h : instrFault s (.sknp x) = none) :
    exec (.sknp x) s = .next (s.skipIf (!s.keyPressed (Fin.ofNat 16 (s.getV x).toNat))) := by
  show completeOrRaise s ((keyIndex _).map _) = _
  rw [keyIndex_eq, show keyFault s x = none from h]
  rfl

theorem exec_ldB_ok {s : State} {x : Reg} (h : instrFault s (.ldB x) = none) :
    exec (.ldB x) s =
      .next { s with mem := Memory.writeList s.mem s.i.toNat (bcdDigits (s.getV x)), pc := s.pc + 2 } := by
  show completeOrRaise s ((storeAtI s.params (bcdDigits (s.getV x)) s).map _) = _
  rw [storeAtI_eq s (by simp [bcdDigits]), show storeFault s (bcdDigits (s.getV x)).length = none from h]
  rfl

theorem exec_storeRegs_ok {s : State} {x : Reg} (h : instrFault s (.storeRegs x) = none) :
    exec (.storeRegs x) s = .next { s with
      mem := Memory.writeList s.mem s.i.toNat (s.regsUpTo x)
      i := BitVec.ofNat 16 (s.i.toNat + x.val + 1)
      pc := s.pc + 2 } := by
  show completeOrRaise s ((storeAtI s.params (s.regsUpTo x) s).map _) = _
  rw [storeAtI_eq s (s.regsUpTo_ne_nil x), s.regsUpTo_length x, show storeFault s (x.val + 1) = none from h]
  rfl

theorem exec_loadRegs_ok {s : State} {x : Reg} (h : instrFault s (.loadRegs x) = none) :
    exec (.loadRegs x) s = .next { s with
      v := (s.setVsFrom 0 ((List.range (x.val + 1)).map fun k => Memory.read s.mem (s.i.toNat + k))).v
      i := BitVec.ofNat 16 (s.i.toNat + x.val + 1)
      pc := s.pc + 2 } := by
  show completeOrRaise s ((readBytes _ _ s).map _) = _
  rw [readBytes_eq, show accessFault s (x.val + 1) = none from h]
  show Host.Outcome.next ((s.setVsFrom 0 _).setI _).advance = _
  rw [State.setVsFrom_frame]
  rfl

theorem exec_drw_ok {s : State} {x y : Reg} {n : Nibble} (h : instrFault s (.drw x y n) = none) :
    exec (.drw x y n) s = .next (drawSprite s.params x y
      ((List.range n.toNat).map fun k => Memory.read s.mem (s.i.toNat + k)) s).advance := by
  show completeOrRaise s ((readBytes _ _ s).map _) = _
  rw [readBytes_eq, show accessFault s n.toNat = none from h]
  rfl

/-- The registers after `FX65` completes. -/
theorem getV_loaded (s : State) (x r : Reg) :
    (s.setVsFrom 0 ((List.range (x.val + 1)).map fun k => Memory.read s.mem (s.i.toNat + k))).getV r =
      if r ≤ x then Memory.read s.mem (s.i.toNat + r.val) else s.getV r := by
  have hx := x.isLt
  rw [State.getV_setVsFrom _ _ _ (by simp)]
  by_cases h : r.val ≤ x.val
  · rw [if_pos (by simp; omega), if_pos (show r ≤ x from h)]
    have hlt : r.val < x.val + 1 := by omega
    simp [hlt]
  · rw [if_neg (by simp; omega), if_neg (show ¬ r ≤ x from h)]

/-! ### Where an instruction faults -/

/-- Where `instrFault` names a fault, the instruction latches it and changes nothing else. -/
theorem exec_of_instrFault {s : State} {i : Instr} {f : FaultStatus} (h : instrFault s i = some f) :
    exec i s = .next (s.raiseFault f) := by
  cases i with
  | ret =>
    change (if s.sp = 0 then some _ else none) = some f at h
    split at h
    · next h0 =>
      cases h
      show completeOrRaise s (s.pop.map _) = _
      rw [s.pop_error h0]
      rfl
    · cases h
  | call nnn =>
    change (if s.sp = 16 then some _ else none) = some f at h
    split at h
    · next h0 =>
      cases h
      show completeOrRaise s ((s.push _).map _) = _
      rw [s.push_error _ h0]
      rfl
    · cases h
  | skp x =>
    show completeOrRaise s ((keyIndex _).map _) = _
    rw [keyIndex_eq, show keyFault s x = some f from h]
    rfl
  | sknp x =>
    show completeOrRaise s ((keyIndex _).map _) = _
    rw [keyIndex_eq, show keyFault s x = some f from h]
    rfl
  | drw x y n =>
    show completeOrRaise s ((readBytes _ _ s).map _) = _
    rw [readBytes_eq, show accessFault s n.toNat = some f from h]
    rfl
  | loadRegs x =>
    show completeOrRaise s ((readBytes _ _ s).map _) = _
    rw [readBytes_eq, show accessFault s (x.val + 1) = some f from h]
    rfl
  | ldB x =>
    show completeOrRaise s ((storeAtI s.params (bcdDigits (s.getV x)) s).map _) = _
    rw [storeAtI_eq s (by simp [bcdDigits]), show storeFault s (bcdDigits (s.getV x)).length = some f from h]
    rfl
  | storeRegs x =>
    show completeOrRaise s ((storeAtI s.params (s.regsUpTo x) s).map _) = _
    rw [storeAtI_eq s (s.regsUpTo_ne_nil x), s.regsUpTo_length x, show storeFault s (x.val + 1) = some f from h]
    rfl
  | _ => cases h

end Sys2Proof.Machine
end

