-- ==== Sys2Proof/Laws/HostOps.lean ====
section
/-! SUPPORT. What `initialize` leaves, whatever the parameters of the machine. -/

namespace Sys2Proof.Machine

theorem defaultFont_length : defaultFont.length = 80 := rfl

/-- Above the font the reset contents are zero. -/
theorem resetByte_of_le (c : Config) {a : Nat} (h : 80 ≤ a) : resetByte c a = 0 := by
  simp [resetByte, h]

/-- Inside the font the reset contents are the bytes of `FONT`. -/
theorem resetByte_font (c : Config) (j : Fin 80) : resetByte c j.val = c.font.get j := by
  simp [resetByte, Vector.get]

/-- With the default parameters the reset contents are what an unlisted address reads as. -/
theorem resetByte_config (a : Nat) : resetByte config a = Memory.unlisted a := rfl

/-- After `initialize` memory holds the reset contents of the machine's own parameters. -/
theorem read_initial (c : Config) (a : Nat) : Memory.read (State.initial c).mem a = resetByte c a := by
  show Memory.read (Memory.writeList [] 0 c.font.toList) a = _
  rw [Memory.read_writeList, Vector.length_toList, Memory.read_nil]
  by_cases h : a < 80
  · rw [if_pos (by omega)]
    rfl
  · rw [if_neg (by omega), resetByte_of_le c (by omega), Memory.unlisted,
      List.getD_eq_default _ _ (by rw [defaultFont_length]; omega)]

/-- After `initialize` memory is in its canonical form. -/
theorem wf_initial (c : Config) : Memory.wf (State.initial c).mem = true :=
  Memory.wf_writeList _ rfl (by rw [Vector.length_toList]; decide)

/-- The reset state is the one after `initialize` with the default parameters. -/
theorem initial_config : State.initial config = State.reset := by decide +kernel

end Sys2Proof.Machine
end

