-- ==== Sys2Proof/Laws/PerInstr.lean ====
section
/-! SUPPORT. Statements made of every instruction, one lemma a constructor. `EncodedAsRow`: the instruction's word
selects its own row of the opcode table (30_encoding.md R74). -/

namespace Sys2Proof.Laws.EncodedAsRow

/-- The word of `i` selects the row of `i`: `w & mask == match` (R74). -/
def Statement (i : Instr) : Prop := encode i &&& rowMask i = rowMatch i

/-- Format `F_NNN` under its mask. -/
theorem formatNNN_masked (op : Nibble) (nnn : Addr12) : formatNNN op nnn &&& 0xF000 = op ++ (0x000 : BitVec 12) := by
  rw [formatNNN, show (0xF000 : Word) = BitVec.allOnes 4 ++ (0x000 : BitVec 12) from rfl, BitVec.and_append,
    BitVec.and_allOnes]
  exact congrArg _ BitVec.and_zero

/-- Format `F_XNN` under its mask. -/
theorem formatXNN_masked (op : Nibble) (x : Reg) (nn : Byte) :
    formatXNN op x nn &&& 0xF000 = op ++ (0x0 : BitVec 4) ++ (0x00 : BitVec 8) := by
  rw [formatXNN, show (0xF000 : Word) = BitVec.allOnes 4 ++ (0x0 : BitVec 4) ++ (0x00 : BitVec 8) from rfl,
    BitVec.and_append, BitVec.and_append, BitVec.and_allOnes]
  exact congr (congrArg _ (congrArg _ BitVec.and_zero)) BitVec.and_zero

/-- Format `F_X` under its mask. -/
theorem formatX_masked (op : Nibble) (x : Reg) (nn : Byte) :
    formatXNN op x nn &&& 0xF0FF = op ++ (0x0 : BitVec 4) ++ nn := by
  rw [formatXNN, show (0xF0FF : Word) = BitVec.allOnes 4 ++ (0x0 : BitVec 4) ++ BitVec.allOnes 8 from rfl,
    BitVec.and_append, BitVec.and_append, BitVec.and_allOnes, BitVec.and_allOnes]
  exact congrArg (· ++ nn) (congrArg _ BitVec.and_zero)

/-- Format `F_XY` under its mask. -/
theorem formatXY_masked (op : Nibble) (x y : Reg) (n : Nibble) :
    formatXYN op x y n &&& 0xF00F = op ++ (0x0 : BitVec 4) ++ (0x0 : BitVec 4) ++ n := by
  rw [formatXYN, show (0xF00F : Word) = BitVec.allOnes 4 ++ (0x0 : BitVec 4) ++ (0x0 : BitVec 4) ++ BitVec.allOnes 4 from rfl,
    BitVec.and_append, BitVec.and_append, BitVec.and_append, BitVec.and_allOnes, BitVec.and_allOnes]
  exact congrArg (· ++ n) (congr (congrArg _ (congrArg _ BitVec.and_zero)) BitVec.and_zero)

/-- Format `F_XYN` under its mask. -/
theorem formatXYN_masked (op : Nibble) (x y : Reg) (n : Nibble) :
    formatXYN op x y n &&& 0xF000 = op ++ (0x0 : BitVec 4) ++ (0x0 : BitVec 4) ++ (0x0 : BitVec 4) := by
  rw [formatXYN, show (0xF000 : Word) = BitVec.allOnes 4 ++ (0x0 : BitVec 4) ++ (0x0 : BitVec 4) ++ (0x0 : BitVec 4) from rfl,
    BitVec.and_append, BitVec.and_append, BitVec.and_append, BitVec.and_allOnes]
  exact congr (congrArg _ (congr (congrArg _ (congrArg _ BitVec.and_zero)) BitVec.and_zero)) BitVec.and_zero

theorem sys (nnn : Addr12) : Statement (.sys nnn) := formatNNN_masked _ nnn

theorem cls : Statement (.cls) := rfl

theorem ret : Statement (.ret) := rfl

theorem jp (nnn : Addr12) : Statement (.jp nnn) := formatNNN_masked _ nnn

theorem call (nnn : Addr12) : Statement (.call nnn) := formatNNN_masked _ nnn

theorem seByte (x : Reg) (nn : Byte) : Statement (.seByte x nn) := formatXNN_masked _ x nn

theorem sneByte (x : Reg) (nn : Byte) : Statement (.sneByte x nn) := formatXNN_masked _ x nn

theorem seReg (x : Reg) (y : Reg) : Statement (.seReg x y) := formatXY_masked _ x y _

theorem ldByte (x : Reg) (nn : Byte) : Statement (.ldByte x nn) := formatXNN_masked _ x nn

theorem addByte (x : Reg) (nn : Byte) : Statement (.addByte x nn) := formatXNN_masked _ x nn

theorem ldReg (x : Reg) (y : Reg) : Statement (.ldReg x y) := formatXY_masked _ x y _

theorem orReg (x : Reg) (y : Reg) : Statement (.orReg x y) := formatXY_masked _ x y _

theorem andReg (x : Reg) (y : Reg) : Statement (.andReg x y) := formatXY_masked _ x y _

theorem xorReg (x : Reg) (y : Reg) : Statement (.xorReg x y) := formatXY_masked _ x y _

theorem addReg (x : Reg) (y : Reg) : Statement (.addReg x y) := formatXY_masked _ x y _

theorem subReg (x : Reg) (y : Reg) : Statement (.subReg x y) := formatXY_masked _ x y _

theorem shr (x : Reg) : Statement (.shr x) := formatXY_masked _ x 0 _

theorem subnReg (x : Reg) (y : Reg) : Statement (.subnReg x y) := formatXY_masked _ x y _

theorem shl (x : Reg) : Statement (.shl x) := formatXY_masked _ x 0 _

theorem sneReg (x : Reg) (y : Reg) : Statement (.sneReg x y) := formatXY_masked _ x y _

theorem ldI (nnn : Addr12) : Statement (.ldI nnn) := formatNNN_masked _ nnn

theorem jpV0 (nnn : Addr12) : Statement (.jpV0 nnn) := formatNNN_masked _ nnn

theorem rnd (x : Reg) (nn : Byte) : Statement (.rnd x nn) := formatXNN_masked _ x nn

theorem drw (x : Reg) (y : Reg) (n : Nibble) : Statement (.drw x y n) := formatXYN_masked _ x y n

theorem skp (x : Reg) : Statement (.skp x) := formatX_masked _ x _

theorem sknp (x : Reg) : Statement (.sknp x) := formatX_masked _ x _

theorem ldVxDt (x : Reg) : Statement (.ldVxDt x) := formatX_masked _ x _

theorem ldVxK (x : Reg) : Statement (.ldVxK x) := formatX_masked _ x _

theorem ldDtVx (x : Reg) : Statement (.ldDtVx x) := formatX_masked _ x _

theorem ldStVx (x : Reg) : Statement (.ldStVx x) := formatX_masked _ x _

theorem addI (x : Reg) : Statement (.addI x) := formatX_masked _ x _

theorem ldF (x : Reg) : Statement (.ldF x) := formatX_masked _ x _

theorem ldB (x : Reg) : Statement (.ldB x) := formatX_masked _ x _

theorem storeRegs (x : Reg) : Statement (.storeRegs x) := formatX_masked _ x _

theorem loadRegs (x : Reg) : Statement (.loadRegs x) := formatX_masked _ x _

end Sys2Proof.Laws.EncodedAsRow
end

