-- ==== Sys2Proof/Tests/Slice0.lean ====
section
/-! SUPPORT. The model's own tests: one ill-formed term for each check of WellFormed, a word written out from the
spec's encoding for every constructor, the spec's own vectors (95_test_vectors.md, named in each comment), and for each
statement with hypotheses a witness that meets them. -/

open Sys2Proof Sys2Proof.Machine

namespace Sys2Proof.Tests

/-! ### Small states and one step -/

/-- The reset state with some registers set. -/
def regs (l : List (Reg × Byte)) : State := l.foldl (fun s p => s.setV p.1 p.2) State.reset

/-- `s` with bytes placed from `a`. -/
def poke (a : Nat) (bs : List Byte) (s : State) : State := { s with mem := Memory.writeList s.mem a bs }

/-- `s` on a machine with other settings (R8). -/
def setting (f : Config → Config) (s : State) : State := { s with params := f s.params }

/-- The setting `SUB_VF_POLARITY = BORROW`. -/
def borrow : State → State := setting fun c => { c with subVfPolarity := .borrow }

/-- The setting `DRAW_VF_CLEAR = false`. -/
def keepVf : State → State := setting fun c => { c with drawVfClear := false }

/-- The setting `TICK_DURING_STALL = false`. -/
def holdTimers : State → State := setting fun c => { c with tickDuringStall := false }

/-- The setting `RESERVED_WRITE_FAULT = false`. -/
def allowReserved : State → State := setting fun c => { c with reservedWriteFault := false }

/-- `s` with the listed keys pressed. -/
def press (ks : List Reg) (s : State) : State := s.setKeys (Vector.ofFn fun k => decide (k ∈ ks))

/-- One step of `s` with the word `w` at `PC`. -/
def run (w : Nat) (s : State) : State :=
  match step (s.withFetchWord 16 w) with
  | .next t => t
  | .fault _ => s
  | .refused _ => s

/-- The bytes at n addresses from a. -/
def bytesAt (s : State) (a n : Nat) : List Byte := (List.range n).map fun k => Memory.read s.mem (a + k)

/-! ### WellFormed (30_encoding.md R68) -/

theorem test_wf_refuses_sys_cls : (Instr.sys 0x0E0).wellFormed = false := by decide
theorem test_wf_refuses_sys_ret : (Instr.sys 0x0EE).wellFormed = false := by decide
theorem test_wf_accepts_sys_neighbour : (Instr.sys 0x0E1).wellFormed = true := by decide

/-! ### Decoding: words written out bit by bit, w[15:12] w[11:8] w[7:4] w[3:0] (30_encoding.md sections 1 to 3) -/

theorem test_decode_sys : decode 0b0000000100100011 = .ok (.sys 0x123) := by decide
theorem test_decode_cls : decode 0b0000000011100000 = .ok .cls := by decide
theorem test_decode_ret : decode 0b0000000011101110 = .ok .ret := by decide
theorem test_decode_jp : decode 0b0001101010111100 = .ok (.jp 0xABC) := by decide
theorem test_decode_call : decode 0b0010110111101111 = .ok (.call 0xDEF) := by decide
theorem test_decode_seByte : decode 0b0011101001000010 = .ok (.seByte 10 0x42) := by decide
theorem test_decode_sneByte : decode 0b0100101101000011 = .ok (.sneByte 11 0x43) := by decide
theorem test_decode_seReg : decode 0b0101000100100000 = .ok (.seReg 1 2) := by decide
theorem test_decode_ldByte : decode 0b0110111110011001 = .ok (.ldByte 15 0x99) := by decide
theorem test_decode_addByte : decode 0b0111001100000101 = .ok (.addByte 3 0x05) := by decide
theorem test_decode_ldReg : decode 0b1000000100100000 = .ok (.ldReg 1 2) := by decide
theorem test_decode_orReg : decode 0b1000111100100001 = .ok (.orReg 15 2) := by decide
theorem test_decode_andReg : decode 0b1000000111110010 = .ok (.andReg 1 15) := by decide
theorem test_decode_xorReg : decode 0b1000000100100011 = .ok (.xorReg 1 2) := by decide
theorem test_decode_addReg : decode 0b1000000100100100 = .ok (.addReg 1 2) := by decide
theorem test_decode_subReg : decode 0b1000000100100101 = .ok (.subReg 1 2) := by decide
theorem test_decode_shr : decode 0b1000010001010110 = .ok (.shr 4) := by decide
theorem test_decode_subnReg : decode 0b1000000100100111 = .ok (.subnReg 1 2) := by decide
theorem test_decode_shl : decode 0b1000010001011110 = .ok (.shl 4) := by decide
theorem test_decode_sneReg : decode 0b1001000100100000 = .ok (.sneReg 1 2) := by decide
theorem test_decode_ldI : decode 0b1010000100100011 = .ok (.ldI 0x123) := by decide
theorem test_decode_jpV0 : decode 0b1011111110000000 = .ok (.jpV0 0xF80) := by decide
theorem test_decode_rnd : decode 0b1100001100001111 = .ok (.rnd 3 0x0F) := by decide
theorem test_decode_drw : decode 0b1101000000010101 = .ok (.drw 0 1 5) := by decide
theorem test_decode_skp : decode 0b1110010110011110 = .ok (.skp 5) := by decide
theorem test_decode_sknp : decode 0b1110010110100001 = .ok (.sknp 5) := by decide
theorem test_decode_ldVxDt : decode 0b1111001000000111 = .ok (.ldVxDt 2) := by decide
theorem test_decode_ldVxK : decode 0b1111000100001010 = .ok (.ldVxK 1) := by decide
theorem test_decode_ldDtVx : decode 0b1111000000010101 = .ok (.ldDtVx 0) := by decide
theorem test_decode_ldStVx : decode 0b1111000000011000 = .ok (.ldStVx 0) := by decide
theorem test_decode_addI : decode 0b1111001000011110 = .ok (.addI 2) := by decide
theorem test_decode_ldF : decode 0b1111101000101001 = .ok (.ldF 10) := by decide
theorem test_decode_ldB : decode 0b1111000000110011 = .ok (.ldB 0) := by decide
theorem test_decode_storeRegs : decode 0b1111001001010101 = .ok (.storeRegs 2) := by decide
theorem test_decode_loadRegs : decode 0b1111111101100101 = .ok (.loadRegs 15) := by decide

/-- E12: unrecognized words, none of which falls through to a neighbour. -/
theorem test_decode_unrecognized :
    decodeTableWord 16 0x8008 = none ∧ decodeTableWord 16 0x5121 = none ∧ decodeTableWord 16 0x912F = none ∧
    decodeTableWord 16 0xE000 = none ∧ decodeTableWord 16 0xF000 = none := by decide

/-- An encoded word is the one of the table, `Y` of a shift written as 0 (log 11). -/
theorem test_encode_shift : encode (.shr 4) = 0x8406 ∧ encode (.shl 4) = 0x840E := by decide

/-! ### Control flow (vectors CF1 to CF25) -/

/-- CF1 and CF2. -/
theorem test_sys : (run 0x0000 State.reset).pc = 0x202 ∧ (run 0x0123 State.reset).pc = 0x202 := by decide

/-- CF3. -/
theorem test_cls :
    (run 0x00E0 { State.reset with fb := (FrameBuffer.blank.toggle 5 5).toggle 63 31 }).fb = FrameBuffer.blank ∧
    (run 0x00E0 { State.reset with fb := FrameBuffer.blank.toggle 5 5 }).pc = 0x202 := by decide +kernel

/-- CF4. -/
theorem test_ret :
    (run 0x00EE { State.reset with sp := 1, stack := State.reset.stack.set 0 0x206, pc := 0x300 }).pc = 0x206 ∧
    (run 0x00EE { State.reset with sp := 1, stack := State.reset.stack.set 0 0x206, pc := 0x300 }).sp = 0 ∧
    (run 0x00EE { State.reset with sp := 1, stack := State.reset.stack.set 0 0x206, pc := 0x300 }).stack.get 0 =
      0x206 := by decide

/-- CF5. -/
theorem test_ret_underflow :
    (run 0x00EE { State.reset with dt := 5 }).fault = ⟨.stackUnderflow, 0⟩ ∧
    (run 0x00EE { State.reset with dt := 5 }).pc = 0x200 ∧ (run 0x00EE { State.reset with dt := 5 }).dt = 5 := by decide

/-- CF6 and CF7. -/
theorem test_jp : (run 0x1ABC State.reset).pc = 0xABC ∧ (run 0x1203 State.reset).pc = 0x203 := by decide

/-- CF9. -/
theorem test_call :
    (run 0x2210 { State.reset with pc := 0x204 }).stack.get 0 = 0x206 ∧
    (run 0x2210 { State.reset with pc := 0x204 }).sp = 1 ∧
    (run 0x2210 { State.reset with pc := 0x204 }).pc = 0x210 := by decide

/-- CF10. -/
theorem test_call_overflow :
    (run 0x2400 { State.reset with sp := 16, dt := 5 }).fault = ⟨.stackOverflow, 16⟩ ∧
    (run 0x2400 { State.reset with sp := 16, dt := 5 }).sp = 16 ∧
    (run 0x2400 { State.reset with sp := 16, dt := 5 }).dt = 5 := by decide

/-- CF12 and CF13. -/
theorem test_jpV0 :
    (run 0xBF80 (regs [(0, 0xFF)])).pc = 0x107F ∧ (run 0xB300 (regs [(3, 0x42), (0, 0x01)])).pc = 0x301 := by decide

/-- CF14 to CF16. -/
theorem test_seByte :
    (run 0x3005 { regs [(0, 5)] with pc := 0x202 }).pc = 0x206 ∧ (run 0x3005 (regs [(0, 4)])).pc = 0x202 ∧
    (run 0x3005 { regs [(0, 5)] with pc := 0xFFC }).pc = 0x1000 := by decide

/-- CF17 and CF18. -/
theorem test_sneByte :
    (run 0x4005 (regs [(0, 5)])).pc = 0x202 ∧ (run 0x4005 (regs [(0, 4)])).pc = 0x204 := by decide

/-- CF19 and CF20. -/
theorem test_seReg :
    (run 0x5120 (regs [(1, 7), (2, 7)])).pc = 0x204 ∧ (run 0x5120 (regs [(1, 7), (2, 8)])).pc = 0x202 := by decide

/-- CF22, CF23 and E13: nothing falls through. -/
theorem test_sneReg :
    (run 0x9120 { regs [(1, 7), (2, 8)] with i := 0x123 }).pc = 0x204 ∧
    (run 0x9120 { regs [(1, 7), (2, 8)] with i := 0x123 }).i = 0x123 ∧
    (run 0x9120 (regs [(1, 7), (2, 7)])).pc = 0x202 := by decide

/-- CF21, CF24 and AR31: an unrecognized word advances and does nothing else. -/
theorem test_unrecognized :
    (run 0x5121 (regs [(1, 7), (2, 7)])).pc = 0x202 ∧ (run 0x912F (regs [(1, 7), (2, 8)])).pc = 0x202 ∧
    (run 0x8128 (regs [(1, 7), (2, 8)])).v = (regs [(1, 7), (2, 8)]).v := by decide

/-! ### Registers and arithmetic (vectors AR1 to AR31, E2) -/

/-- AR1 and AR2. -/
theorem test_ldByte : (run 0x6A42 State.reset).getV 10 = 0x42 ∧ (run 0x6F99 State.reset).getV 15 = 0x99 := by decide

/-- AR3 and AR4. -/
theorem test_addByte :
    (run 0x7305 (regs [(3, 0xFE), (15, 0x55)])).getV 3 = 0x03 ∧
    (run 0x7305 (regs [(3, 0xFE), (15, 0x55)])).getV 15 = 0x55 ∧
    (run 0x7F01 (regs [(15, 0x10)])).getV 15 = 0x11 := by decide

/-- AR5. -/
theorem test_ldReg : (run 0x8120 (regs [(2, 0x42)])).getV 1 = 0x42 := by decide

/-- AR6 and AR10. -/
theorem test_orReg :
    (run 0x8121 (regs [(1, 0x0F), (2, 0xF0), (15, 0x55)])).getV 1 = 0xFF ∧
    (run 0x8121 (regs [(1, 0x0F), (2, 0xF0), (15, 0x55)])).getV 15 = 0x55 ∧
    (run 0x8F21 (regs [(15, 0x0F), (2, 0xF0)])).getV 15 = 0xFF := by decide

/-- AR7. -/
theorem test_andReg : (run 0x8122 (regs [(1, 0x3C), (2, 0x0F)])).getV 1 = 0x0C := by decide

/-- AR8 and AR9. -/
theorem test_xorReg :
    (run 0x8123 (regs [(1, 0x3C), (2, 0x0F)])).getV 1 = 0x33 ∧ (run 0x8113 (regs [(1, 0x3C)])).getV 1 = 0 := by decide

/-- E2, rows 1 and 3. -/
theorem test_addReg :
    (run 0x8014 (regs [(0, 0xFF), (1, 0x01)])).getV 0 = 0x00 ∧ (run 0x8014 (regs [(0, 0xFF), (1, 0x01)])).getV 15 = 1 ∧
    (run 0x8014 (regs [(0, 0x7F), (1, 0x80)])).getV 0 = 0xFF ∧
    (run 0x8014 (regs [(0, 0x7F), (1, 0x80), (15, 1)])).getV 15 = 0 := by decide

/-- AR11 to AR13: VF as destination, VF as addend, X = Y. -/
theorem test_addReg_vf :
    (run 0x8F14 (regs [(15, 0xFF), (1, 0x01)])).getV 15 = 1 ∧ (run 0x81F4 (regs [(1, 0x10), (15, 0xF0)])).getV 1 = 0 ∧
    (run 0x81F4 (regs [(1, 0x10), (15, 0xF0)])).getV 15 = 1 ∧ (run 0x8114 (regs [(1, 0x81)])).getV 1 = 0x02 := by decide

/-- AR14, AR15, AR16 and AR18, the `NO_BORROW` column. -/
theorem test_subReg :
    (run 0x8125 (regs [(1, 0x20), (2, 0x10)])).getV 1 = 0x10 ∧ (run 0x8125 (regs [(1, 0x20), (2, 0x10)])).getV 15 = 1 ∧
    (run 0x8125 (regs [(1, 0x10), (2, 0x20)])).getV 1 = 0xF0 ∧
    (run 0x8125 (regs [(1, 0x10), (2, 0x20), (15, 1)])).getV 15 = 0 ∧
    (run 0x8125 (regs [(1, 0x33), (2, 0x33)])).getV 15 = 1 ∧
    (run 0x8F15 (regs [(15, 0x05), (1, 0x03)])).getV 15 = 1 := by decide

/-- AR14, AR15, AR16 and AR23, the `BORROW` column. -/
theorem test_subtract_borrow :
    (run 0x8125 (borrow (regs [(1, 0x20), (2, 0x10), (15, 1)]))).getV 15 = 0 ∧
    (run 0x8125 (borrow (regs [(1, 0x10), (2, 0x20)]))).getV 15 = 1 ∧
    (run 0x8125 (borrow (regs [(1, 0x33), (2, 0x33), (15, 1)]))).getV 15 = 0 ∧
    (run 0x8127 (borrow (regs [(1, 0x10), (2, 0x20), (15, 1)]))).getV 15 = 0 := by decide

/-- AR19, AR21 and AR22. -/
theorem test_shr :
    (run 0x8406 (regs [(4, 0x05)])).getV 4 = 0x02 ∧ (run 0x8456 (regs [(4, 0x05), (5, 0xFF)])).getV 4 = 0x02 ∧
    (run 0x8456 (regs [(4, 0x05), (5, 0xFF)])).getV 15 = 1 ∧ (run 0x8F06 (regs [(15, 0x03)])).getV 15 = 1 := by decide

/-- AR23 and AR24. -/
theorem test_subnReg :
    (run 0x8127 (regs [(1, 0x10), (2, 0x20)])).getV 1 = 0x10 ∧ (run 0x8127 (regs [(1, 0x10), (2, 0x20)])).getV 15 = 1 ∧
    (run 0x8127 (regs [(1, 0x20), (2, 0x10)])).getV 1 = 0xF0 ∧
    (run 0x8127 (regs [(1, 0x20), (2, 0x10), (15, 1)])).getV 15 = 0 := by decide

/-- AR25 to AR27. -/
theorem test_shl :
    (run 0x840E (regs [(4, 0x81)])).getV 4 = 0x02 ∧ (run 0x840E (regs [(4, 0x81)])).getV 15 = 1 ∧
    (run 0x840E (regs [(4, 0x40)])).getV 4 = 0x80 ∧ (run 0x8F0E (regs [(15, 0x80)])).getV 15 = 1 := by decide

/-- AR29: whatever is drawn, a zero mask gives zero. -/
theorem test_rnd_zero_mask : ∃ t, exec (.rnd 3 0x00) State.reset = .next t ∧ t.getV 3 = 0x00 :=
  ⟨_, rfl, (State.getV_setV_self _ _ _).trans BitVec.and_zero⟩

/-- AR30 and R115: a full mask gives the draw, and the next draw is another one. -/
theorem test_rnd_full_mask :
    ∃ t, exec (.rnd 3 0xFF) State.reset = .next t ∧ t.getV 3 = Config.rnd 0 ∧ t.draws = 1 :=
  ⟨_, rfl, (State.getV_setV_self _ _ _).trans BitVec.and_allOnes, rfl⟩

/-! ### Index and memory (vectors MI1 to MI25) -/

/-- MI1. -/
theorem test_ldI : (run 0xA123 State.reset).i = 0x123 := by decide

/-- MI2, MI4, MI5 and MI6. -/
theorem test_addI :
    (run 0xF21E { regs [(2, 3)] with i := 0x0FFE }).i = 0x1001 ∧ (run 0xF21E { regs [(2, 3)] with i := 0x0FFE }).getV 15 = 1 ∧
    (run 0xF21E { State.reset with i := 0x0FFF }).getV 15 = 0 ∧ (run 0xF21E { State.reset with i := 0x1001 }).getV 15 = 1 ∧
    (run 0xF21E { regs [(2, 2)] with i := 0xFFFF }).i = 0x0001 ∧
    (run 0xF21E { regs [(2, 2)] with i := 0xFFFF }).getV 15 = 1 := by decide

/-- MI7: the old VF is added, then VF is overwritten. -/
theorem test_addI_vf :
    (run 0xFF1E { regs [(15, 0x10)] with i := 0x100 }).i = 0x110 ∧
    (run 0xFF1E { regs [(15, 0x10)] with i := 0x100 }).getV 15 = 0 := by decide

/-- MI8. -/
theorem test_ldF :
    (run 0xF029 (regs [(0, 0x0A)])).i = 0x032 ∧ (run 0xF029 (regs [(0, 0x10)])).i = 0x050 ∧
    (run 0xF029 (regs [(0, 0xFF)])).i = 0x4FB := by decide

/-- MI10 to MI12. -/
theorem test_ldB :
    bytesAt (run 0xF033 { regs [(0, 0x7B)] with i := 0x300 }) 0x300 3 = [1, 2, 3] ∧
    bytesAt (run 0xF033 (poke 0x300 [0x11, 0x22, 0x33] { State.reset with i := 0x300 })) 0x300 3 = [0, 0, 0] ∧
    bytesAt (run 0xF033 { regs [(0, 0xFF)] with i := 0xFFD }) 0xFFD 3 = [2, 5, 5] := by decide

/-- MI13 and MI14. -/
theorem test_ldB_faults :
    (run 0xF033 { regs [(0, 0xFF)] with i := 0xFFE }).fault = ⟨.memOob, 0x1000⟩ ∧
    bytesAt (run 0xF033 { regs [(0, 0xFF)] with i := 0xFFE }) 0xFFE 2 = [0, 0] ∧
    (run 0xF033 { regs [(0, 0xFF)] with i := 0x1FF }).fault = ⟨.reservedWrite, 0x1FF⟩ := by decide

/-- MI15: with `RESERVED_WRITE_FAULT` false the step writes the three bytes. -/
theorem test_reserved_write_allowed :
    bytesAt (run 0xF033 (allowReserved { regs [(0, 0xFF)] with i := 0x1FF, pc := 0x300 })) 0x1FF 3 = [2, 5, 5] ∧
    (run 0xF033 (allowReserved { regs [(0, 0xFF)] with i := 0x1FF, pc := 0x300 })).pc = 0x302 := by decide

/-- MI16 and MI18. -/
theorem test_storeRegs :
    bytesAt (run 0xF255 { regs [(0, 1), (1, 2), (2, 3), (3, 4)] with i := 0x400 }) 0x400 4 = [1, 2, 3, 0] ∧
    (run 0xF255 { regs [(0, 1), (1, 2), (2, 3)] with i := 0x400 }).i = 0x403 ∧
    (run 0xFF55 { State.reset with i := 0xFF0, pc := 0x300 }).i = 0x1000 := by decide

/-- MI19 and MI20. -/
theorem test_storeRegs_faults :
    (run 0xFF55 { regs [(0, 1)] with i := 0xFF1, pc := 0x300 }).fault = ⟨.memOob, 0x1000⟩ ∧
    (run 0xFF55 { regs [(0, 1)] with i := 0xFF1, pc := 0x300 }).i = 0xFF1 ∧
    bytesAt (run 0xFF55 { regs [(0, 1)] with i := 0xFF1, pc := 0x300 }) 0xFF1 1 = [0] ∧
    (run 0xF055 { regs [(0, 9)] with i := 0x050, pc := 0x300 }).fault = ⟨.reservedWrite, 0x050⟩ := by decide

/-- MI21 and MI22. -/
theorem test_loadRegs :
    (run 0xF265 (poke 0x300 [1, 2, 3, 4] { State.reset with i := 0x300 })).getV 2 = 3 ∧
    (run 0xF265 (poke 0x300 [1, 2, 3, 4] { State.reset with i := 0x300 })).getV 3 = 0 ∧
    (run 0xF465 State.reset).v = (regs [(0, 0xF0), (1, 0x90), (2, 0x90), (3, 0x90), (4, 0xF0)]).v ∧
    (run 0xF465 State.reset).i = 0x005 := by decide

/-- MI24 and MI25. -/
theorem test_loadRegs_edge :
    (run 0xF165 (poke 0xFFE [0xAB, 0xCD] { State.reset with i := 0xFFE, pc := 0x300 })).getV 1 = 0xCD ∧
    (run 0xF165 { State.reset with i := 0xFFE, pc := 0x300 }).i = 0x1000 ∧
    (run 0xF065 { State.reset with i := 0x1000 }).fault = ⟨.memOob, 0x1000⟩ := by decide

/-! ### Display (vectors DR1 to DR10) -/

/-- The lit pixels among the first rows, row by row. -/
def litRows (n : Nat) (s : State) : List (Nat × Nat) :=
  (List.range n).flatMap fun y => ((List.range 64).filter fun x => s.fb.pixel (wrapX x) (wrapY y)).map fun x => (x, y)

/-- DR1 (glyph "0"), DR5 (wrap at the right edge), DR6 (start coordinates reduced) and DR9 (the column is the old VF). -/
theorem test_drw_pixels :
    litRows 6 (run 0xD015 State.reset) =
      [(0, 0), (1, 0), (2, 0), (3, 0), (0, 1), (3, 1), (0, 2), (3, 2), (0, 3), (3, 3), (0, 4), (1, 4), (2, 4), (3, 4)] ∧
    litRows 1 (run 0xD011 (poke 0x300 [0xFF] { regs [(0, 60)] with i := 0x300 })) =
      [(0, 0), (1, 0), (2, 0), (3, 0), (60, 0), (61, 0), (62, 0), (63, 0)] ∧
    litRows 4 (run 0xD012 (poke 0x300 [0x81, 0x81] { regs [(0, 68), (1, 33)] with i := 0x300 })) =
      [(4, 1), (11, 1), (4, 2), (11, 2)] ∧
    litRows 4 (run 0xDF11 (poke 0x300 [0x80] { regs [(15, 8), (1, 2)] with i := 0x300 })) = [(8, 2)] := by
  decide +kernel

/-- DR1, DR3 (N = 0 reads nothing), DR4 and DR8 (`DRAW_VF_CLEAR` false), DR7 (the fault), and a hit (R125). -/
theorem test_drw_flag :
    (run 0xD015 (regs [(15, 1)])).getV 15 = 0 ∧
    (run 0xD010 { regs [(15, 1)] with i := 0x2000 }).fault.cause = .noFault ∧
    (run 0xD010 { regs [(15, 1)] with i := 0x2000 }).getV 15 = 0 ∧
    (run 0xD010 (keepVf { regs [(15, 1)] with i := 0x2000 })).getV 15 = 1 ∧
    (run 0xD011 (keepVf (poke 0x300 [0x80] { regs [(15, 1)] with i := 0x300 }))).getV 15 = 1 ∧
    (run 0xD013 { State.reset with i := 0xFFE }).fault = ⟨.memOob, 0x1000⟩ ∧
    (run 0xD011 { State.reset with fb := FrameBuffer.blank.toggle 3 0 }).getV 15 = 1 := by decide +kernel

/-! ### Input and timers (vectors IT1 to IT16) -/

/-- IT1 to IT3. -/
theorem test_skp :
    (run 0xE59E (press [7] { regs [(5, 7)] with pc := 0x300 })).pc = 0x304 ∧
    (run 0xE59E { regs [(5, 7)] with pc := 0x300 }).pc = 0x302 ∧
    (run 0xE59E { regs [(5, 0x10)] with pc := 0x300 }).fault = ⟨.keyRange, 0x10⟩ := by decide

/-- IT4 and IT5. -/
theorem test_sknp :
    (run 0xE5A1 { regs [(5, 7)] with pc := 0x300 }).pc = 0x304 ∧
    (run 0xE5A1 (press [7] { regs [(5, 7)] with pc := 0x300 })).pc = 0x302 := by decide

/-- IT6 and IT7: a stall step, under both settings of `TICK_DURING_STALL`. -/
theorem test_ldVxK_stall :
    (run 0xF10A { State.reset with dt := 3 }).pc = 0x200 ∧ (run 0xF10A { State.reset with dt := 3 }).out.blocked = true ∧
    (run 0xF10A { State.reset with dt := 3 }).dt = 2 ∧
    (run 0xF10A (holdTimers { State.reset with dt := 3 })).dt = 3 ∧
    (run 0xF10A (holdTimers { State.reset with dt := 3 })).out.blocked = true := by decide

/-- IT8 and IT9. -/
theorem test_ldVxK :
    (run 0xFF0A (press [0xC, 3] State.reset)).getV 15 = 3 ∧ (run 0xFF0A (press [0xC, 3] State.reset)).pc = 0x202 ∧
    (run 0xF10A (press [0] (regs [(1, 9)]))).getV 1 = 0 := by decide

/-- IT10. -/
theorem test_ldVxDt :
    (run 0xF207 { State.reset with dt := 3 }).getV 2 = 3 ∧ (run 0xF207 { State.reset with dt := 3 }).dt = 2 := by decide

/-- IT11 to IT13. -/
theorem test_ldDtVx :
    (run 0xF015 (regs [(0, 5)])).dt = 4 ∧ (run 0xF015 (regs [(0, 1)])).dt = 0 ∧
    (run 0xF015 { State.reset with dt := 9 }).dt = 0 := by decide

/-- IT14 to IT16. -/
theorem test_ldStVx :
    (run 0xF018 (regs [(0, 1)])).st = 0 ∧ (run 0xF018 (regs [(0, 1)])).out.tone = true ∧
    (run 0xF018 (regs [(0, 2)])).st = 1 ∧ (run 0xF018 (regs [(0, 2)])).out.tone = false ∧
    (run 0xF018 { State.reset with st := 0x10 }).st = 0 ∧
    (run 0xF018 { State.reset with st := 0x10 }).out.tone = false := by decide

/-! ### Cycle, faults, reset and load (vectors FL1 to FL10) -/

/-- FL1. -/
theorem test_faulted_step :
    run 0x6001 { State.reset with fault := ⟨.memOob, 0x1000⟩, dt := 5 } =
      { State.reset with fault := ⟨.memOob, 0x1000⟩, dt := 5 }.withFetchWord 16 0x6001 := by decide +kernel

/-- FL3, FL4 and CF25. -/
theorem test_fetch_bounds :
    (run 0 { State.reset with pc := 0xFFF }).fault = ⟨.fetchOob, 0xFFF⟩ ∧
    (run 0 { State.reset with pc := 0x1000 }).fault = ⟨.fetchOob, 0x1000⟩ ∧
    (run 0x6001 { State.reset with pc := 0xFFE }).getV 0 = 1 ∧
    (run 0x6001 { State.reset with pc := 0xFFE }).pc = 0x1000 := by decide

/-- FL5 and FL7. -/
theorem test_load_bounds :
    (State.reset.loadProgram (List.replicate 3585 0xAA)).1 = .tooLarge ∧
    State.reset.loadProgram [] = (.loaded, State.reset) := by
  refine ⟨?_, rfl⟩
  rw [State.loadProgram, if_pos (by rw [List.length_replicate]; decide)]

/-- FL8: bytes of the reset memory. -/
theorem test_reset_memory :
    bytesAt State.reset 0 5 = [0xF0, 0x90, 0x90, 0x90, 0xF0] ∧
    bytesAt State.reset 0x04B 6 = [0xF0, 0x80, 0xF0, 0x80, 0x80, 0x00] ∧ State.reset.pc = 0x200 := by decide

/-- R151 and R40: another `FONT` is what memory holds after `initialize` and after a restart, and nothing above it. -/
theorem test_other_font :
    bytesAt (State.initial { config with font := Vector.replicate 80 0xAA }) 0x04E 4 = [0xAA, 0xAA, 0, 0] ∧
    bytesAt (State.initial { config with font := Vector.replicate 80 0xAA }).restart 0 2 = [0xAA, 0xAA] ∧
    (run 0xF165 (State.initial { config with font := Vector.replicate 80 0xAA })).getV 1 = 0xAA := by decide

/-- FL9 and FL10. -/
theorem test_tick :
    (run 0 { State.reset with dt := 2, st := 1 }).dt = 1 ∧ (run 0 { State.reset with dt := 2, st := 1 }).st = 0 ∧
    (run 0 { State.reset with dt := 2, st := 1 }).out.tone = true ∧ (run 0 State.reset).out.tone = false := by decide

/-- Writing back what an unlisted address reads as takes the cell off the list: equal memories are equal lists. -/
theorem test_memory_canonical :
    Memory.write (Memory.write [] 0x300 7) 0x300 0 = [] ∧ Memory.write [] 0 0xF0 = [] := by decide

/-! ### Witnesses: for each statement with hypotheses, states and operands that meet them -/

theorem witness_StepRunsDecodedInstruction :
    ∃ s t : State, s.running ∧ s.pc.toNat ≤ 0xFFE ∧ s.pc = 0xFFE ∧ decode s.nextWord = .ok (.ldByte 0 1) ∧
      exec (.ldByte 0 1) { s with out := ⟨false, false⟩ } = .next t :=
  ⟨({ State.reset with pc := 0xFFE } : State).withFetchWord 16 0x6001, _, rfl, by decide, rfl, by decide, rfl⟩

theorem witness_UnrecognizedWordIsNoOp :
    ∃ (s : State) (e : Unrecognized), s.running ∧ s.pc.toNat ≤ 0xFFE ∧ decode s.nextWord = .error e :=
  ⟨State.reset.withFetchWord 16 0x8008, _, rfl, by decide, rfl⟩

theorem witness_FaultedStepOnlyReports :
    (State.reset.raiseFault ⟨.memOob, 0x1000⟩).fault.cause ≠ .noFault := by decide

/-- Both sides of the bound, and an odd `PC` in the reserved range. -/
theorem witness_FetchReadsBigEndianOrFaults :
    ({ State.reset with pc := 0xFFE } : State).pc.toNat ≤ 0xFFE ∧ ({ State.reset with pc := 0x001 } : State).pc.toNat ≤ 0xFFE ∧
    ({ State.reset with pc := 0xFFF } : State).running ∧ 0xFFE < ({ State.reset with pc := 0xFFF } : State).pc.toNat :=
  ⟨by decide, by decide, rfl, by decide⟩

theorem witness_FaultIsStickyUntilRestart :
    (State.reset.raiseFault ⟨.fetchOob, 0xFFF⟩).fault.cause ≠ .noFault ∧
    HostAction.restart ∉ [HostAction.load [1], .keys (Vector.replicate 16 true), .step] := by decide

theorem witness_FaultingStepKeepsStateBefore :
    ∃ s t : State, s.running ∧ step s = .next t ∧ ¬ t.running ∧ s.dt ≠ 0 ∧ s.out.blocked = true :=
  ⟨({ State.reset with dt := 5, out := ⟨true, true⟩ } : State).withFetchWord 16 0x00EE, _, rfl, rfl,
    show Cause.stackUnderflow ≠ .noFault by decide, show (5 : Byte) ≠ 0 by decide, rfl⟩

/-- A running state for each row of the table, at a bound of its condition, and one where nothing faults. -/
theorem witness_StepsFaultExactlyAsTabulated :
    stepFault State.reset = none ∧ stepFault { State.reset with pc := 0xFFF } = some ⟨.fetchOob, 0xFFF⟩ ∧
    stepFault ({ State.reset with i := 0xFFD }.withFetchWord 16 0xF033) = none ∧
    stepFault ({ State.reset with i := 0xFFE }.withFetchWord 16 0xF033) = some ⟨.memOob, 0x1000⟩ ∧
    stepFault ({ State.reset with i := 0x1001 }.withFetchWord 16 0xF065) = some ⟨.memOob, 0x1001⟩ ∧
    stepFault ({ State.reset with sp := 15 }.withFetchWord 16 0x2000) = none ∧
    stepFault ({ State.reset with sp := 16 }.withFetchWord 16 0x2000) = some ⟨.stackOverflow, 16⟩ ∧
    stepFault ({ State.reset with sp := 1 }.withFetchWord 16 0x00EE) = none ∧
    stepFault (State.reset.withFetchWord 16 0x00EE) = some ⟨.stackUnderflow, 0⟩ ∧
    stepFault ((regs [(5, 15)]).withFetchWord 16 0xE59E) = none ∧
    stepFault ((regs [(5, 16)]).withFetchWord 16 0xE5A1) = some ⟨.keyRange, 16⟩ ∧
    stepFault ({ State.reset with i := 0x200 }.withFetchWord 16 0xF055) = none ∧
    stepFault ({ State.reset with i := 0x1FF }.withFetchWord 16 0xF055) = some ⟨.reservedWrite, 0x1FF⟩ := by decide

theorem witness_PcAfterCompletedStep : ∃ s t : State, s.running ∧ step s = .next t ∧ t.running :=
  ⟨State.reset, _, rfl, rfl, rfl⟩

/-- A completed step that goes each of the six ways. -/
theorem witness_PcAfterCompletedStep_cases :
    (run 0x6005 State.reset).pc = State.reset.pc + 2 ∧ (run 0x4005 State.reset).pc = State.reset.pc + 4 ∧
    (run 0x2FFF State.reset).pc = 0xFFF ∧ (run 0xBFFF (regs [(0, 0xFF)])).pc = 0x10FE ∧
    (run 0x00EE { State.reset with sp := 16, stack := State.reset.stack.set 15 0x1000 }).pc = 0x1000 ∧
    (run 0xF10A State.reset).pc = State.reset.pc := by decide

/-- The tick from 1, and a timer written by the same step. -/
theorem witness_CompletedStepTicksTimersOnce :
    ∃ s t : State, s.running ∧ step s = .next t ∧ t.running ∧ decode s.nextWord = .ok (.ldStVx 0) ∧ s.getV 0 = 1 ∧
      s.dt = 0 ∧ t.st = 0 ∧ t.out.tone = true :=
  ⟨(regs [(0, 1)]).withFetchWord 16 0xF018, _, rfl, rfl, rfl, by decide, by decide, rfl, rfl, rfl⟩

theorem witness_OutputsOfStep : ∃ s t : State, step s = .next t ∧ t.out.blocked = true ∧ t.out.tone = true :=
  ⟨({ State.reset with st := 1 } : State).withFetchWord 16 0xF10A, _, rfl, rfl, rfl⟩

/-- The clauses on a running and on a faulted core. -/
theorem witness_OutputsOfStep_fault :
    State.reset.running ∧ ¬ (State.reset.raiseFault ⟨.keyRange, 16⟩).running :=
  ⟨rfl, show Cause.keyRange ≠ .noFault by decide⟩

/-- The latches of `keyRun`: none before its first step, key 3 before its second. -/
def keyRunLatches (j : Nat) : Vector Bool 16 := if j = 0 then Vector.replicate 16 false else Vector.ofFn fun k => k == 3

/-- The image of `keyRun`: the word `F1 0A` before its first step, nothing after it. -/
def keyRunImage (j : Nat) : List Byte := if j = 0 then [0xF1, 0x0A] else []

/-- A run that stalls on `FX0A`, is given a key by the host, and takes it: the delay timer goes 1, 0, 0. -/
def keyRun (j : Nat) : State :=
  if j = 0 then { State.reset with dt := 1 }
  else if j = 1 then { State.reset with mem := [(0x200, 0xF1), (0x201, 0x0A)], out := ⟨true, false⟩ }
  else
    { regs [(1, 3)] with
      mem := [(0x200, 0xF1), (0x201, 0x0A)], pc := 0x202, keys := Vector.ofFn fun k => k == 3 }

theorem witness_DelayTimerCountsDown :
    ∀ j < 2, ∀ u : State, u = ((keyRun j).loadProgram (keyRunImage j)).2.setKeys (keyRunLatches j) →
      u.running ∧ step u = .next (keyRun (j + 1)) ∧ (keyRun (j + 1)).running ∧
      ((keyRun (j + 1)).out.blocked = false ∨ u.params.tickDuringStall = true) ∧
      ∀ x, decode u.nextWord ≠ .ok (.ldDtVx x) := by
  intro j hj u hu
  subst hu
  interval_cases j
  · exact ⟨rfl, rfl, rfl, .inr rfl, by decide⟩
  · exact ⟨rfl, rfl, rfl, .inr rfl, by decide⟩

theorem witness_StallTickFollowsParameter :
    State.reset.block.running ∧ State.reset.block.out.blocked = true ∧ config.tickDuringStall = true ∧
    ({ config with tickDuringStall := false } : Config).tickDuringStall = false := ⟨rfl, rfl, rfl, rfl⟩

/-- A state that is not the reset state, with a byte in memory, a return address and a latched fault. -/
def busy : State :=
  { State.reset with
    mem := [(0x300, 7)], pc := 0x10FE, sp := 1, stack := State.reset.stack.set 0 0x1000, fault := ⟨.fetchOob, 0x10FE⟩ }

theorem busy_inv : busy.Inv where
  memory_canonical := by decide
  pc_bounded := by decide
  stack_bounded := by decide
  reserved_intact := by
    intro _ a ha
    exact if_neg (show ¬ 0x300 = a by unfold programBase at ha; omega)
  fault_legal := by
    show 0xFFE < 0x10FE ∧ 0x10FE ≤ 0x10FE
    decide

theorem witness_StepKeepsInvariant : ∃ s t : State, s.Inv ∧ step s = .next t := ⟨busy, _, busy_inv, rfl⟩

theorem witness_HostActionsKeepInvariant : ∃ (as : List HostAction) (s : State), s.Inv ∧ as.length = 4 :=
  ⟨[.step, .restart, .load [0x60, 0x01], .keys (Vector.replicate 16 true)], busy, busy_inv, rfl⟩

/-- Both storing instructions change the last byte they may. -/
theorem witness_OnlyStoresChangeMemory :
    (∃ s t : State, exec (.ldB 0) s = .next t ∧ Memory.read t.mem 0xFFF ≠ Memory.read s.mem 0xFFF) ∧
    (∃ s t : State, exec (.storeRegs 1) s = .next t ∧ Memory.read t.mem 0x401 ≠ Memory.read s.mem 0x401) :=
  ⟨⟨{ regs [(0, 0xFF)] with i := 0xFFD }, _, rfl, by decide⟩, ⟨{ regs [(1, 2)] with i := 0x400 }, _, rfl, by decide⟩⟩

/-- For every clause, an instruction that writes the piece of state. -/
theorem witness_StateWrittenOnlyByNamedInstructions :
    (∃ t, exec (.ldB 0) { regs [(0, 1)] with i := 0x300 } = .next t ∧ t.mem ≠ State.reset.mem) ∧
    (∃ t, exec (.ldI 1) State.reset = .next t ∧ t.i ≠ State.reset.i) ∧
    (∃ t, exec (.call 1) State.reset = .next t ∧ t.stack ≠ State.reset.stack ∧ t.sp ≠ State.reset.sp) ∧
    (∃ t, exec (.ldDtVx 0) (regs [(0, 1)]) = .next t ∧ t.dt ≠ State.reset.dt) ∧
    (∃ t, exec (.ldStVx 0) (regs [(0, 1)]) = .next t ∧ t.st ≠ State.reset.st) ∧
    (∃ t, exec (.drw 0 0 1) State.reset = .next t ∧ t.fb ≠ State.reset.fb) ∧
    (∃ t, exec (.rnd 0 0) State.reset = .next t ∧ t.draws ≠ State.reset.draws) :=
  ⟨⟨_, rfl, by decide⟩, ⟨_, rfl, by decide⟩, ⟨_, rfl, by decide, by decide⟩, ⟨_, rfl, by decide⟩, ⟨_, rfl, by decide⟩,
    ⟨_, rfl, by decide +kernel⟩, ⟨_, rfl, Nat.one_ne_zero⟩⟩

theorem witness_RegistersWrittenOnlyAsTabulated :
    ∃ (s t : State) (r : Reg), exec (.loadRegs 14) s = .next t ∧ registerWrites (.loadRegs 14) r = false :=
  ⟨State.reset, _, 15, rfl, rfl⟩

theorem witness_KeysReadOnlyByKeyInstructions :
    ∃ (i : Instr) (s t : State), (∀ x, i ≠ .skp x) ∧ (∀ x, i ≠ .sknp x) ∧ (∀ x, i ≠ .ldVxK x) ∧ exec i s = .next t :=
  ⟨.ldVxDt 0, press [1] State.reset, _, by decide, by decide, by decide, rfl⟩

/-- An instruction of each clause. -/
theorem witness_SoundTimerIsNotReadable :
    (∃ (i : Instr) (s t : State), exec i s = .next t ∧ ∀ x, i ≠ .ldStVx x) ∧
    ∃ (i : Instr) (s t : State), exec i s = .next t ∧ ∃ x, i = .ldStVx x :=
  ⟨⟨.ldVxDt 0, { State.reset with st := 9 }, _, rfl, by decide⟩, ⟨.ldStVx 2, { State.reset with st := 9 }, _, rfl, 2, rfl⟩⟩

theorem witness_DecodeOfEncodeIsIdentity :
    (Instr.sys 0xFFF).wellFormed = true ∧ (Instr.sys 0x0E1).wellFormed = true ∧ (Instr.drw 15 15 15).wellFormed = true := by
  decide

/-- A word outside the shifts, and one shift of each kind with Y not 0. -/
theorem witness_EncodeOfDecodeIsTheWord :
    decode 0xDFFF = .ok (.drw 15 15 15) ∧ decode 0x84F6 = .ok (.shr 4) ∧ decode 0x84FE = .ok (.shl 4) := by decide

theorem witness_DecodedWordSelectsItsRow : decode 0x00E1 = .ok (.sys 0x0E1) ∧ decode 0x00EE = .ok .ret := by decide

/-- `SP` at its least and its greatest for a return, and 0. -/
theorem witness_RetPopsOrUnderflows :
    (0 : Fin 16).val + 1 = ({ State.reset with sp := 1 } : State).sp.val ∧
    (15 : Fin 16).val + 1 = ({ State.reset with sp := 16 } : State).sp.val ∧ State.reset.sp = 0 := by decide

theorem witness_CallPushesAndJumps :
    State.reset.sp ≠ 16 ∧ ({ State.reset with sp := 15 } : State).sp ≠ 16 ∧
    ({ State.reset with sp := 16 } : State).sp = 16 := by decide

theorem witness_CallThenReturnResumes :
    ∃ s t u : State, s.sp ≠ 16 ∧ exec (.call 0x210) s = .next t ∧ u.stack = t.stack ∧ u.sp = t.sp ∧ u.pc ≠ t.pc :=
  ⟨State.reset, _, { State.reset with sp := 1, stack := State.reset.stack.set 0 0x202 }, by decide, rfl, by decide, rfl,
    by decide⟩

/-- The clauses that set VF aside are met with X = 0 and r = 1. -/
theorem witness_AddSetsCarry : (0 : Reg) ≠ 15 ∧ (1 : Reg) ≠ 0 ∧ (1 : Reg) ≠ 15 := by decide

/-- Equal operands, a borrow and none. -/
theorem witness_SubtractionsSetBorrowFlag :
    ∃ (s : State) (a b : Nat), a = (s.getV 1).toNat ∧ b = (s.getV 2).toNat ∧ a < b ∧ (1 : Reg) ≠ 15 ∧ (0 : Reg) ≠ 1 :=
  ⟨regs [(1, 0x10), (2, 0x20)], 0x10, 0x20, by decide, by decide, by decide, by decide, by decide⟩

theorem witness_ShiftsByOneBit : (4 : Reg) ≠ 15 ∧ (0 : Reg) ≠ 4 ∧ (0 : Reg) ≠ 15 := by decide

theorem witness_LogicalOperations : (7 : Nat) < 8 ∧ (15 : Reg) ≠ 1 := by decide

theorem witness_ImmediateLoadAndAdd : (15 : Reg) ≠ 3 := by decide

theorem witness_RandomByteIsMasked : (0x0F : Byte).getLsbD 4 = false ∧ (0x00 : Byte).getLsbD 0 = false ∧ (2 : Reg) ≠ 3 := by
  decide

theorem witness_IndexAddSetsRangeFlag : (2 : Reg) ≠ 15 := by decide

/-- Each clause at its bounds: 0x200 and 0xFFD complete, 0xFFE and 0xFFFF pass the end, 0x1FF is reserved, or completes
where the parameter is false. -/
theorem witness_DecimalDigitsStored :
    ({ State.reset with i := 0x200 } : State).i.toNat + 2 ≤ 0xFFF ∧
    0x200 ≤ ({ State.reset with i := 0x200 } : State).i.toNat ∧
    ({ State.reset with i := 0xFFD } : State).i.toNat + 2 ≤ 0xFFF ∧
    0xFFF < ({ State.reset with i := 0xFFE } : State).i.toNat + 2 ∧
    0xFFF < ({ State.reset with i := 0xFFFF } : State).i.toNat + 2 ∧
    ({ State.reset with i := 0x1FF } : State).i.toNat < 0x200 ∧ State.reset.params.reservedWriteFault = true ∧
    (allowReserved State.reset).params.reservedWriteFault = false := by decide

theorem witness_RegistersStored :
    ({ State.reset with i := 0xFF0 } : State).i.toNat + (15 : Reg).val ≤ 0xFFF ∧
    0x200 ≤ ({ State.reset with i := 0xFF0 } : State).i.toNat ∧ (15 : Reg) ≤ 15 ∧
    0xFFF < ({ State.reset with i := 0xFF1 } : State).i.toNat + (15 : Reg).val ∧
    ({ State.reset with i := 0x1FF } : State).i.toNat < 0x200 ∧ State.reset.params.reservedWriteFault = true ∧
    (allowReserved State.reset).params.reservedWriteFault = false := by decide

theorem witness_RegistersLoaded :
    State.reset.i.toNat + (15 : Reg).val ≤ 0xFFF ∧
    ({ State.reset with i := 0xFFF } : State).i.toNat + (0 : Reg).val ≤ 0xFFF ∧
    0xFFF < ({ State.reset with i := 0xFFF } : State).i.toNat + (1 : Reg).val := by decide

theorem witness_ReservedWriteFollowsParameter :
    0x1FF < 0x200 ∧ config.reservedWriteFault = true ∧
    ({ config with reservedWriteFault := false } : Config).reservedWriteFault = false := by decide

theorem witness_FetchSeesStoredBytes :
    ∃ s t u : State, 1 ≤ (1 : Reg).val ∧ s.running ∧ exec (.storeRegs 1) s = .next t ∧ t.running ∧ u.mem = t.mem ∧
      u.pc = s.i :=
  ⟨{ regs [(0, 0x60), (1, 0x05)] with i := 0xFFE }, _,
    { State.reset with mem := [(0xFFE, 0x60), (0xFFF, 0x05)], pc := 0xFFE }, by decide, rfl, rfl, rfl, by decide, rfl⟩

/-- N = 0 with `I` outside memory, the last sprite inside it, the first that is not. -/
theorem witness_DrawXorsSpriteAndReportsCollision :
    ((0 : Nibble) = 0 ∨ ({ State.reset with i := 0x2000 } : State).i.toNat + (0 : Nibble).toNat ≤ 0x1000) ∧
    ((3 : Nibble) = 0 ∨ ({ State.reset with i := 0xFFD } : State).i.toNat + (3 : Nibble).toNat ≤ 0x1000) ∧
    (3 : Nibble) ≠ 0 ∧ 0x1000 < ({ State.reset with i := 0xFFE } : State).i.toNat + (3 : Nibble).toNat := by decide

/-- A sprite that hits a lit pixel, and one that hits none. -/
theorem witness_DrawXorsSpriteAndReportsCollision_hits :
    spriteHits { State.reset with fb := FrameBuffer.blank.toggle 0 0 } 0 1 5 ∧ ¬ spriteHits State.reset 0 1 0 := by
  refine ⟨⟨0, 0, by decide +kernel, by decide⟩, ?_⟩
  rintro ⟨px, py, _, h⟩
  simp [spriteBit] at h

theorem witness_DrawFlagUnderEitherSetting :
    (drawRows 0 0 [0x80] (FrameBuffer.blank.toggle 0 0, false)).2 = true ∧
    (drawRows 0 0 [0x80] (FrameBuffer.blank, false)).2 = false := by decide +kernel

theorem witness_DrawingTwiceRestores :
    ∃ s t u w : State, ((1 : Nibble) = 0 ∨ s.i.toNat + (1 : Nibble).toNat ≤ 0x1000) ∧ exec (.drw 0 1 1) s = .next t ∧
      u.fb = t.fb ∧ u.getV 0 = s.getV 0 ∧ u.getV 1 = s.getV 1 ∧ u.i = s.i ∧ u.mem = s.mem ∧
      exec (.drw 0 1 1) u = .next w ∧ u.params.drawVfClear = true :=
  ⟨State.reset, _, drawSprite config 0 1 [0xF0] State.reset, _, by decide, rfl, rfl, rfl, rfl, rfl, rfl, rfl, rfl⟩

theorem witness_DrawAfterClearNeverCollides :
    ∃ s t u : State, ((15 : Nibble) = 0 ∨ s.i.toNat + (15 : Nibble).toNat ≤ 0x1000) ∧ exec .cls s = .next t ∧
      exec (.drw 0 1 15) t = .next u ∧ s.params.drawVfClear = true :=
  ⟨{ State.reset with fb := FrameBuffer.blank.toggle 0 0, i := 0xFF1 }, _, _, by decide, rfl, rfl, rfl⟩

/-- The bounds of a key index, and the first value above them. -/
theorem witness_KeySkips :
    ((regs [(5, 0)]).getV 5).toNat = (0 : Reg).val ∧ ((regs [(5, 15)]).getV 5).toNat = (15 : Reg).val ∧
    15 < ((regs [(5, 16)]).getV 5).toNat := by decide

/-- The lowest latch, the highest alone, and none. -/
theorem witness_WaitForKey :
    ((press [0, 15] State.reset).keys.get 0 = true ∧ ∀ j : Reg, j < 0 → (press [0, 15] State.reset).keys.get j = false) ∧
    ((press [15] State.reset).keys.get 15 = true ∧ ∀ j : Reg, j < 15 → (press [15] State.reset).keys.get j = false) ∧
    ∀ k : Reg, State.reset.keys.get k = false := by decide

/-- A new machine with another font, and a restart of a faulted core. -/
theorem witness_InitializeResetsEverything :
    (∃ (s t : State) (c : Config), c.font ≠ config.font ∧ (t = State.initial c ∨ (t = s.restart ∧ c = s.params))) ∧
    ∃ (s t : State) (c : Config), ¬ s.running ∧ (t = State.initial c ∨ (t = s.restart ∧ c = s.params)) :=
  ⟨⟨busy, _, { config with font := Vector.replicate 80 0xAA }, by decide, .inl rfl⟩,
    ⟨busy, _, _, show Cause.fetchOob ≠ .noFault by decide, .inr ⟨rfl, rfl⟩⟩⟩

/-- The largest image, and the first that is too large. -/
theorem witness_LoadPlacesImage : (List.replicate 3584 (0xAA : Byte)).length ≤ 3584 := by rw [List.length_replicate]

theorem witness_LoadTooLargeChangesNothing : 3584 < (List.replicate 3585 (0xAA : Byte)).length := by
  rw [List.length_replicate]
  decide

end Sys2Proof.Tests
end

section
/-!
Proofs for 20_memory.md: what one data write does to memory.
-/
namespace Sys2Proof.Proofs
open Sys2Proof Sys2Proof.Machine

/-- Settles O48: with the parameter true the reserved-range check of `memWrite` answers; with it false that check never
fires, and an address below 0x200 is inside memory, so the byte is written (R50). -/
theorem reservedWriteFollowsParameter : Obligations.ReservedWriteFollowsParameter := by
  intro c a b s ha
  constructor
  · exact memWrite_reserved b s ha
  · intro hoff
    have hok : memWrite c a b s = .ok { s with mem := Memory.write s.mem a b } :=
      memWrite_ok b s (by omega) (by simp [hoff])
    refine ⟨_, hok, ?_, fun k hk => ?_, rfl⟩
    · rw [Memory.read_write, if_pos rfl]
    · rw [Memory.read_write, if_neg hk]

end Sys2Proof.Proofs
end

section
/-! SUPPORT for 40_cycle.md. What an instruction that completes leaves in the timers and the outputs, and from it what
the step of a running core answers, each said once. -/

namespace Sys2Proof.Machine

/-! ### What execute leaves for the end of the step -/

/-- `DT` as the fetched word leaves it before the tick: `FX15` writes it (R131). -/
def dtBeforeTick (r : Except Unrecognized Instr) (s : State) : Byte :=
  match r with
  | .ok (.ldDtVx x) => s.getV x
  | _ => s.dt

/-- `ST` as the fetched word leaves it before the tick: `FX18` writes it (R132). -/
def stBeforeTick (r : Except Unrecognized Instr) (s : State) : Byte :=
  match r with
  | .ok (.ldStVx x) => s.getV x
  | _ => s.st

/-- The fetched word stalls: `FX0A` with no latch set (R129). -/
def stallsOn (r : Except Unrecognized Instr) (s : State) : Bool :=
  match r with
  | .ok (.ldVxK _) => s.lowestKey.isNone
  | _ => false

theorem dtBeforeTick_of_ne {r : Except Unrecognized Instr} (s : State) (h : ∀ x, r ≠ .ok (.ldDtVx x)) :
    dtBeforeTick r s = s.dt := by
  unfold dtBeforeTick
  split
  · next x => exact absurd rfl (h x)
  · rfl

theorem stallsOn_iff {r : Except Unrecognized Instr} {s : State} :
    stallsOn r s = true ↔ (∃ x, r = .ok (.ldVxK x)) ∧ ∀ k, s.keyPressed k = false := by
  unfold stallsOn
  split
  · simp [State.lowestKey_none]
  · next h => simpa using fun x hx => absurd hx (h x)

/-- `u` is what execute makes of `s` when the word `r` completes, in the fields the end of the step looks at. -/
structure Executed (r : Except Unrecognized Instr) (s u : State) : Prop where
  fault : u.fault = s.fault
  dt : u.dt = dtBeforeTick r s
  st : u.st = stBeforeTick r s
  blocked : u.out.blocked = (s.out.blocked || stallsOn r s)
  tone : u.out.tone = s.out.tone

/-- The word `r` neither writes a timer nor stalls, and `u` keeps timers, outputs and `FAULT`. -/
theorem executed_of_frame {r : Except Unrecognized Instr} {s u : State} (hd : dtBeforeTick r s = s.dt)
    (hs : stBeforeTick r s = s.st) (hb : stallsOn r s = false) (hf : u.fault = s.fault) (hdt : u.dt = s.dt)
    (hst : u.st = s.st) (ho : u.out = s.out) : Executed r s u where
  fault := hf
  dt := hdt.trans hd.symm
  st := hst.trans hs.symm
  blocked := by rw [ho, hb, Bool.or_false]
  tone := by rw [ho]

theorem executed_unrecognized (e : Unrecognized) (s : State) : Executed (.error e) s s.advance :=
  executed_of_frame rfl rfl rfl rfl rfl rfl rfl

/-- `FX0A` is the one instruction that stalls: with a key it writes VX, without one it sets `blocked` (R129). -/
theorem executed_ldVxK {s u : State} {x : Reg} (h : exec (.ldVxK x) s = .next u) : Executed (.ok (.ldVxK x)) s u := by
  change (match s.lowestKey with | some k => _ | none => _) = _ at h
  cases hk : s.lowestKey with
  | some k =>
    rw [hk] at h
    cases h
    exact executed_of_frame rfl rfl (by simp [stallsOn, hk]) rfl rfl rfl rfl
  | none =>
    rw [hk] at h
    cases h
    exact ⟨rfl, rfl, rfl, by simp [stallsOn, hk], rfl⟩

/-- An instruction whose fault condition does not hold completes: `FX15` and `FX18` write their timer, a stall sets
`blocked`, and timers, outputs and `FAULT` are otherwise as before. -/
theorem exec_executed {i : Instr} {s u : State} (hf : instrFault s i = none) (h : exec i s = .next u) :
    Executed (.ok i) s u := by
  cases i with
  | ldVxK x => exact executed_ldVxK h
  | ldDtVx x => cases h; exact ⟨rfl, rfl, rfl, by simp [stallsOn], rfl⟩
  | ldStVx x => cases h; exact ⟨rfl, rfl, rfl, by simp [stallsOn], rfl⟩
  | ret =>
    obtain ⟨_, he⟩ := exec_ret_ok hf
    cases he.symm.trans h
    exact executed_of_frame rfl rfl rfl rfl rfl rfl rfl
  | call nnn =>
    obtain ⟨_, he⟩ := exec_call_ok hf
    cases he.symm.trans h
    exact executed_of_frame rfl rfl rfl rfl rfl rfl rfl
  | skp x =>
    cases (exec_skp_ok hf).symm.trans h
    exact executed_of_frame rfl rfl rfl (by simp) (by simp) (by simp) (by simp)
  | sknp x =>
    cases (exec_sknp_ok hf).symm.trans h
    exact executed_of_frame rfl rfl rfl (by simp) (by simp) (by simp) (by simp)
  | ldB x => cases (exec_ldB_ok hf).symm.trans h; exact executed_of_frame rfl rfl rfl rfl rfl rfl rfl
  | storeRegs x => cases (exec_storeRegs_ok hf).symm.trans h; exact executed_of_frame rfl rfl rfl rfl rfl rfl rfl
  | loadRegs x => cases (exec_loadRegs_ok hf).symm.trans h; exact executed_of_frame rfl rfl rfl rfl rfl rfl rfl
  | drw x y n => cases (exec_drw_ok hf).symm.trans h; exact executed_of_frame rfl rfl rfl rfl rfl rfl rfl
  | seByte | sneByte | seReg | sneReg =>
    cases h
    exact executed_of_frame rfl rfl rfl (by simp) (by simp) (by simp) (by simp)
  | _ => cases h; exact executed_of_frame rfl rfl rfl rfl rfl rfl rfl

/-! ### The step of a running core -/

theorem State.faulted_of_running {s : State} (h : s.running) : s.faulted = false := s.not_faulted_iff.2 h

theorem accessFault_cause {s : State} {n : Nat} {f : FaultStatus} (h : accessFault s n = some f) :
    f.cause = .memOob := by
  obtain ⟨_, _, rfl⟩ := accessFault_some h
  rfl

theorem storeFault_cause {s : State} {n : Nat} {f : FaultStatus} (h : storeFault s n = some f) :
    f.cause = .reservedWrite ∨ f.cause = .memOob := by
  unfold storeFault at h
  split at h
  · cases h; exact .inl rfl
  · exact .inr (accessFault_cause h)

theorem keyFault_cause {s : State} {x : Reg} {f : FaultStatus} (h : keyFault s x = some f) :
    f.cause = .keyRange := by
  unfold keyFault at h
  split at h <;> cases h
  rfl

/-- A fault that R134 names for an instruction has a cause other than `NONE`. -/
theorem instrFault_cause_ne {s : State} {i : Instr} {f : FaultStatus} (h : instrFault s i = some f) :
    f.cause ≠ .noFault := by
  cases i with
  | ret =>
    change (if s.sp = 0 then some _ else none) = some f at h
    split at h <;> cases h
    exact nofun
  | call nnn =>
    change (if s.sp = 16 then some _ else none) = some f at h
    split at h <;> cases h
    exact nofun
  | skp x | sknp x => rw [keyFault_cause h]; exact nofun
  | drw x y n => rw [accessFault_cause h]; exact nofun
  | loadRegs x => rw [accessFault_cause h]; exact nofun
  | ldB x | storeRegs x => rcases storeFault_cause h with hc | hc <;> rw [hc] <;> exact nofun
  | _ => cases h

theorem stepFault_of_fetchOob {s : State} (hp : 0xFFE < s.pc.toNat) : stepFault s = some ⟨.fetchOob, s.pc.toNat⟩ :=
  if_pos hp

theorem stepFault_of_decode {s : State} {i : Instr} (hp : s.pc.toNat ≤ 0xFFE) (hd : decode s.nextWord = .ok i) :
    stepFault s = instrFault s i := by
  rw [stepFault, if_neg (by omega), hd]

theorem stepFault_of_unrecognized {s : State} {e : Unrecognized} (hp : s.pc.toNat ≤ 0xFFE)
    (hd : decode s.nextWord = .error e) : stepFault s = none := by
  rw [stepFault, if_neg (by omega), hd]

/-- `FX0A` raises no fault of R134. -/
theorem stepFault_of_stallsOn {s : State} (hp : s.pc.toNat ≤ 0xFFE) (h : stallsOn (decode s.nextWord) s = true) :
    stepFault s = none := by
  obtain ⟨⟨x, hd⟩, -⟩ := stallsOn_iff.1 h
  exact stepFault_of_decode hp hd

/-- Clearing the outputs first moves no fault condition: R134 does not look at them. -/
theorem instrFault_clearOutputs (s : State) (i : Instr) : instrFault s.clearOutputs i = instrFault s i := by
  cases i <;> rfl

theorem finishStep_of_faulted (c : Config) {s : State} (h : s.faulted = true) : finishStep c s = s := if_pos h

theorem State.raiseFault_faulted (s : State) {f : FaultStatus} (h : f.cause ≠ .noFault) :
    (s.raiseFault f).faulted = true := (State.faulted_iff _).2 h

/-- Where nothing has faulted, the end of the step is the tick, except on a stall when `TICK_DURING_STALL` is false
(R84, R86). -/
theorem finishStep_of_running (c : Config) {s : State} (h : s.running) :
    finishStep c s = if s.out.blocked = true ∧ c.tickDuringStall = false then s else tick s := by
  rw [finishStep, State.faulted_of_running h]
  simp

theorem step_of_faulted {s : State} (h : s.fault.cause ≠ .noFault) : step s = .next s.clearOutputs :=
  if_pos (s.faulted_iff.2 h)

theorem step_of_running {s : State} (h : s.running) :
    step s = match fetch s with
      | .error f => .next (s.raiseFault f)
      | .ok w =>
        match decode w with
        | .ok i => afterExecute s.params (exec i s.clearOutputs)
        | .error _ => afterExecute s.params (execUnrecognized s.clearOutputs) :=
  if_neg (by rw [State.clearOutputs_faulted, State.faulted_of_running h]; decide)

theorem step_of_fetchOob {s : State} (hr : s.running) (hp : 0xFFE < s.pc.toNat) :
    step s = .next (s.raiseFault ⟨.fetchOob, s.pc.toNat⟩) := by
  rw [step_of_running hr, fetch_eq, if_pos hp]

theorem step_of_unrecognized {s : State} {e : Unrecognized} (hr : s.running) (hp : s.pc.toNat ≤ 0xFFE)
    (hd : decode s.nextWord = .error e) : step s = .next (finishStep s.params s.clearOutputs.advance) := by
  rw [step_of_running hr, fetch_eq, if_neg (by omega)]
  simp only [hd]
  rfl

/-- The step of a running core latches the fault that R134 names and keeps the rest, or executes the fetched word and
ends the step. -/
theorem step_running_cases {s t : State} (hr : s.running) (h : step s = .next t) :
    (∃ f, stepFault s = some f ∧ f.cause ≠ .noFault ∧ t = s.raiseFault f) ∨
    (s.pc.toNat ≤ 0xFFE ∧ stepFault s = none ∧
      ∃ u, Executed (decode s.nextWord) s.clearOutputs u ∧ t = finishStep s.params u) := by
  have hnf := State.faulted_of_running hr
  obtain ⟨hf, -⟩ | ⟨-, hp, rfl⟩ | ⟨-, hp, i, u, hd, he, rfl⟩ | ⟨-, hp, ⟨e, hd⟩, rfl⟩ := step_cases h
  · rw [hnf] at hf
    cases hf
  · exact .inl ⟨_, stepFault_of_fetchOob hp, nofun, rfl⟩
  · rw [stepFault_of_decode hp hd, hd]
    have hc := instrFault_clearOutputs s i
    cases hi : instrFault s i with
    | some f =>
      have hcause := instrFault_cause_ne hi
      cases (exec_of_instrFault (hc.trans hi)).symm.trans he
      exact .inl ⟨f, rfl, hcause, finishStep_of_faulted _ (State.raiseFault_faulted _ hcause)⟩
    | none => exact .inr ⟨hp, rfl, u, exec_executed (hc.trans hi) he, rfl⟩
  · exact .inr ⟨hp, stepFault_of_unrecognized hp hd, _, hd ▸ executed_unrecognized e _, rfl⟩

/-- What ends a completed step: it runs on, `blocked` is the stall, and both timers tick after the instruction's write
with `tone` from `ST` (R84, R88), except on a stall when `TICK_DURING_STALL` is false (R86). -/
theorem Executed.finish {r : Except Unrecognized Instr} {s u : State} (hr : s.running)
    (h : Executed r s.clearOutputs u) (c : Config) :
    (finishStep c u).running ∧ (finishStep c u).out.blocked = stallsOn r s ∧
      if (finishStep c u).out.blocked = true ∧ c.tickDuringStall = false then
        (finishStep c u).dt = dtBeforeTick r s ∧ (finishStep c u).st = stBeforeTick r s ∧
          (finishStep c u).out.tone = false
      else
        (finishStep c u).dt = timerDown (dtBeforeTick r s) ∧ (finishStep c u).st = timerDown (stBeforeTick r s) ∧
          (finishStep c u).out.tone = decide (stBeforeTick r s = 1) := by
  have hrun : u.running := (congrArg FaultStatus.cause h.fault).trans hr
  have hblocked : u.out.blocked = stallsOn r s := h.blocked
  have hdt : u.dt = dtBeforeTick r s := h.dt
  have hst : u.st = stBeforeTick r s := h.st
  have htone : u.out.tone = false := h.tone
  rw [finishStep_of_running c hrun, ← hblocked, ← hdt, ← hst]
  by_cases hstall : u.out.blocked = true ∧ c.tickDuringStall = false
  · rw [if_pos hstall, if_pos hstall]
    exact ⟨hrun, rfl, rfl, rfl, htone⟩
  · have htickStall : ¬ ((tick u).out.blocked = true ∧ c.tickDuringStall = false) := hstall
    rw [if_neg hstall, if_neg htickStall]
    exact ⟨hrun, rfl, rfl, rfl, by simp [htone]⟩

/-- The step of a running core that runs on afterwards raised no fault and executed the fetched word. -/
theorem step_completed {s t : State} (hr : s.running) (h : step s = .next t) (ht : t.running) :
    s.pc.toNat ≤ 0xFFE ∧ stepFault s = none ∧
      ∃ u, Executed (decode s.nextWord) s.clearOutputs u ∧ t = finishStep s.params u := by
  obtain ⟨f, -, hf, rfl⟩ | hc := step_running_cases hr h
  · exact absurd ht hf
  · exact hc

/-- Loading an image, or failing to, keeps the delay timer (R154, R155). -/
@[simp] theorem State.loadProgram_dt (s : State) (bytes : List Byte) : (s.loadProgram bytes).2.dt = s.dt := by
  unfold State.loadProgram
  split <;> rfl

theorem wordOfBytes_toNat (hi lo : Byte) : (wordOfBytes hi lo).toNat = hi.toNat * 256 + lo.toNat := by
  rw [wordOfBytes, BitVec.toNat_append, ← Nat.shiftLeft_add_eq_or_of_lt lo.isLt, Nat.shiftLeft_eq]

end Sys2Proof.Machine
end

section
/-!
Proofs for 40_cycle.md: the step, its timers and its outputs.
-/
namespace Sys2Proof.Proofs
open Sys2Proof Sys2Proof.Machine

/-- Settles O10: a completed step is an executed instruction and the end of the step, whose timers `Executed.finish`
gives. -/
theorem completedStepTicksTimersOnce : Obligations.CompletedStepTicksTimersOnce := by
  intro s t hr h ht dt st hdt hst
  change dt = dtBeforeTick (decode s.nextWord) s at hdt
  change st = stBeforeTick (decode s.nextWord) s at hst
  obtain ⟨-, -, u, hu, rfl⟩ := step_completed hr h ht
  obtain ⟨-, -, htimers⟩ := hu.finish hr s.params
  rw [← hdt, ← hst] at htimers
  split at htimers
  · next hstall => rw [if_pos hstall]; exact htimers
  · next hticks =>
    obtain ⟨h1, h2, h3⟩ := htimers
    rw [if_neg hticks, h1, h2, h3, timerDown_toNat, timerDown_toNat]
    exact ⟨rfl, rfl, decide_eq_true_iff⟩

/-- Settles O11: a faulted core and a step that faults clear both outputs; a step that completes sets them as
`Executed.finish` says. -/
theorem outputsOfStep : Obligations.OutputsOfStep := by
  intro s t h
  change _ ∧ (_ ↔ _ ∧ _ ∧ _ ∧ stBeforeTick (decode s.nextWord) s = 1) ∧ _
  rw [← stallsOn_iff]
  by_cases hr : s.running
  · obtain ⟨f, hf, hcause, rfl⟩ | ⟨hp, hf, u, hu, rfl⟩ := step_running_cases hr h
    · have hstep : stepFault s ≠ none := by rw [hf]; exact nofun
      refine ⟨⟨nofun, ?_⟩, ⟨nofun, ?_⟩, fun _ => iff_of_false hcause hstep, fun hnr => absurd hr hnr⟩
      · rintro ⟨-, hp, hstall⟩
        exact absurd (stepFault_of_stallsOn hp hstall) hstep
      · rintro ⟨-, hrun, -⟩
        exact absurd hrun hcause
    · obtain ⟨hrun, hb, htimers⟩ := hu.finish hr s.params
      refine ⟨?_, ?_, fun _ => iff_of_true hrun hf, fun hnr => absurd hr hnr⟩
      · rw [hb]
        exact ⟨fun hstall => ⟨hr, hp, hstall⟩, fun ⟨_, _, hstall⟩ => hstall⟩
      · split at htimers
        · next hstall =>
          obtain ⟨-, -, htone⟩ := htimers
          rw [htone]
          exact ⟨nofun, fun ⟨_, _, hticks, _⟩ => absurd hstall hticks⟩
        · next hticks =>
          obtain ⟨-, -, htone⟩ := htimers
          rw [htone, decide_eq_true_iff]
          exact ⟨fun hst => ⟨hr, hrun, hticks, hst⟩, fun ⟨_, _, _, hst⟩ => hst⟩
  · cases (step_of_faulted hr).symm.trans h
    exact ⟨⟨nofun, fun ⟨hr', _⟩ => absurd hr' hr⟩, ⟨nofun, fun ⟨hr', _⟩ => absurd hr' hr⟩,
      fun hr' => absurd hr' hr, fun _ => rfl⟩

/-- Settles O12, by induction on the number of steps: the host keeps `DT`, and a step that ticks and is no `FX15` takes
one off it. -/
theorem delayTimerCountsDown : Obligations.DelayTimerCountsDown := by
  intro σ latches image k hsteps
  induction k with
  | zero => rfl
  | succ k ih =>
    have hk := ih fun j hj => hsteps j (by omega)
    obtain ⟨hr, hstep, ht, hticks, hne⟩ := hsteps k (by omega) _ rfl
    set u := ((σ k).loadProgram (image k)).2.setKeys (latches k) with hu
    have hdt : u.dt = (σ k).dt := by rw [hu, State.setKeys_dt, State.loadProgram_dt]
    have htick := completedStepTicksTimersOnce u _ hr hstep ht u.dt _ (dtBeforeTick_of_ne u hne).symm rfl
    rw [if_neg (by rintro ⟨hb, hp⟩; simp [hb, hp] at hticks)] at htick
    obtain ⟨hdec, -⟩ := htick
    rw [hdec, hdt, hk]
    omega

/-- Settles O2: the step executes nothing, so nothing stalls, and the tick follows the move of `PC`. -/
theorem unrecognizedWordIsNoOp : Obligations.UnrecognizedWordIsNoOp := by
  intro s e hr hp hd
  have hrun : s.clearOutputs.advance.running := hr
  rw [step_of_unrecognized hr hp hd, finishStep_of_running _ hrun, if_neg (fun hstall => nomatch hstall.1)]
  rfl

/-- Settles O3: the step of a faulted core is `clearOutputs`. -/
theorem faultedStepOnlyReports : Obligations.FaultedStepOnlyReports := fun _ h => step_of_faulted h

/-- Settles O4: fetch reads `nextWord` up to 0xFFE, and above it the step latches `FETCH_OOB`. -/
theorem fetchReadsBigEndianOrFaults : Obligations.FetchReadsBigEndianOrFaults := by
  intro s
  constructor
  · intro hp
    exact ⟨s.nextWord, by rw [fetch_eq, if_neg (by omega)], wordOfBytes_toNat _ _⟩
  · intro hr hp
    exact step_of_fetchOob hr hp

/-- Settles O13: on a running core that is blocked, whether the end of the step ticks is the parameter alone. -/
theorem stallTickFollowsParameter : Obligations.StallTickFollowsParameter := by
  intro c s hr hb
  rw [finishStep_of_running c hr]
  constructor
  · intro ht
    rw [if_neg (by simp [ht])]
    exact ⟨timerDown_toNat _, timerDown_toNat _⟩
  · intro ht
    rw [if_pos ⟨hb, ht⟩]

end Sys2Proof.Proofs
end

section
/-! SUPPORT for 41_control_flow.md. What the shared operations of jumps, skips and `00E0` give, each said once. -/

namespace Sys2Proof.Machine

@[simp] theorem FrameBuffer.pixel_blank (x : Fin 64) (y : Fin 32) : FrameBuffer.blank.pixel x y = false := by
  rw [FrameBuffer.pixel_eq, FrameBuffer.blank, Vector.getElem_replicate, Vector.getElem_replicate]

@[simp] theorem addr16_toNat (nnn : Addr12) : (addr16 nnn).toNat = nnn.toNat :=
  BitVec.toNat_setWidth_of_le (by decide)

/-- A 12-bit address and a byte add up inside 16 bits: at most 0x10FE (R97). -/
theorem addr16_add_byte_toNat (nnn : Addr12) (b : Byte) :
    (addr16 nnn + b.setWidth 16).toNat = nnn.toNat + b.toNat := by
  have hb : (b.setWidth 16).toNat = b.toNat := BitVec.toNat_setWidth_of_le (by decide)
  have hsum : nnn.toNat + b.toNat < 2 ^ 16 := by
    have := nnn.isLt
    have := b.isLt
    omega
  rw [BitVec.toNat_add, addr16_toNat, hb, Nat.mod_eq_of_lt hsum]

/-- A skip taken when two bytes are equal writes `PC` only (R98, R100). -/
theorem State.skipIf_beq (s : State) (a b : Byte) :
    s.skipIf (a == b) = { s with pc := if a = b then s.pc + 4 else s.pc + 2 } := by
  by_cases h : a = b
  · rw [if_pos h, beq_iff_eq.2 h]
    rfl
  · rw [if_neg h, beq_eq_false_iff_ne.2 h]
    rfl

/-- A skip taken when two bytes differ writes `PC` only (R99, R101). -/
theorem State.skipIf_bne (s : State) (a b : Byte) :
    s.skipIf (a != b) = { s with pc := if a = b then s.pc + 2 else s.pc + 4 } := by
  by_cases h : a = b
  · rw [if_pos h, bne_eq_false_iff_eq.2 h]
    rfl
  · rw [if_neg h, bne_iff_ne.2 h]
    rfl

end Sys2Proof.Machine
end

section
/-!
Proofs for 41_control_flow.md: jumps, calls, returns, skips and the group-0 instructions.
-/
namespace Sys2Proof.Proofs
open Sys2Proof Sys2Proof.Machine

/-- Settles O29: with an entry in use `exec_ret_ok` gives the popped state, and with `SP = 0` the fault condition of
`00EE` holds. -/
theorem retPopsOrUnderflows : Obligations.RetPopsOrUnderflows := by
  intro s
  constructor
  · intro k hk
    have hsp : s.sp ≠ 0 := fun h0 => by simp [h0] at hk
    obtain ⟨-, hexec⟩ := exec_ret_ok (s := s) (if_neg hsp)
    have htop : s.sp.val - 1 = k.val := by omega
    refine ⟨_, hexec, ?_, htop, rfl⟩
    simp only [htop]
    rfl
  · intro h0
    exact exec_of_instrFault (if_pos h0)

/-- Settles O30: with a free entry `exec_call_ok` gives the pushed state, and with `SP = 16` the fault condition of
`2NNN` holds. -/
theorem callPushesAndJumps : Obligations.CallPushesAndJumps := by
  intro nnn s
  constructor
  · intro hsp
    obtain ⟨h16, hexec⟩ := exec_call_ok (s := s) (nnn := nnn) (if_neg hsp)
    exact ⟨_, hexec, stack_get_set s.stack s.sp.val (s.pc + 2) h16, rfl, addr16_toNat nnn, rfl⟩
  · intro h16
    exact exec_of_instrFault (if_pos h16)

/-- Settles O27: the meaning of `0NNN` is `advance`. -/
theorem sysOnlyAdvancesPc : Obligations.SysOnlyAdvancesPc := fun _ _ => rfl

/-- Settles O28: `00E0` puts the blank frame buffer in place and advances. -/
theorem clsDarkensEveryPixel : Obligations.ClsDarkensEveryPixel := fun _ =>
  ⟨_, rfl, FrameBuffer.pixel_blank, rfl, rfl⟩

/-- Settles O32: both jumps write `PC` only, and neither target overflows 16 bits. -/
theorem jumpsSetPc : Obligations.JumpsSetPc := fun nnn s =>
  ⟨⟨_, rfl, addr16_toNat nnn, rfl⟩, ⟨_, rfl, addr16_add_byte_toNat nnn (s.getV 0), rfl⟩⟩

/-- Settles O33: `3XNN` is the skip on equality of VX and NN, `4XNN` the skip on difference. -/
theorem immediateSkips : Obligations.ImmediateSkips := fun x nn s =>
  ⟨congrArg _ (s.skipIf_beq (s.getV x) nn), congrArg _ (s.skipIf_bne (s.getV x) nn)⟩

/-- Settles O34: `5XY0` is the skip on equality of VX and VY, `9XY0` the skip on difference. -/
theorem registerSkips : Obligations.RegisterSkips := fun x y s =>
  ⟨congrArg _ (s.skipIf_beq (s.getV x) (s.getV y)), congrArg _ (s.skipIf_bne (s.getV x) (s.getV y))⟩

end Sys2Proof.Proofs
end

section
/-! SUPPORT for 42_register_arithmetic.md. The flags and the 8-bit results as numbers, and what a register write with
`PC + 2` leaves, with a flag (R22) and without, each said once. -/

namespace Sys2Proof.Machine

/-! ### The flags as numbers (R23) -/

theorem flagByte_toNat (b : Bool) : (flagByte b).toNat = b.toNat := by cases b <;> rfl

theorem flagByte_decide_toNat (p : Prop) [Decidable p] : (flagByte (decide p)).toNat = if p then 1 else 0 :=
  (flagByte_toNat _).trans (Bool.cond_decide p 1 0)

theorem carryFlag_toNat (a b : Byte) : (carryFlag a b).toNat = if a.toNat + b.toNat > 255 then 1 else 0 :=
  flagByte_decide_toNat _

/-- One polarity for both subtractions (decision D9). -/
theorem subFlag_toNat (c : Config) (a b : Byte) :
    (subFlag c a b).toNat = match c.subVfPolarity with
      | .noBorrow => if a.toNat ≥ b.toNat then 1 else 0
      | .borrow => if a.toNat < b.toNat then 1 else 0 := by
  unfold subFlag
  cases c.subVfPolarity with
  | noBorrow => exact flagByte_decide_toNat _
  | borrow => exact flagByte_decide_toNat _

theorem shiftedOutRight_toNat (a : Byte) : (shiftedOutRight a).toNat = a.toNat % 2 := by
  rw [shiftedOutRight, flagByte_toNat, BitVec.getLsbD, Nat.toNat_testBit, Nat.pow_zero, Nat.div_one]

/-- Bit 7 is all that division by 128 leaves of a byte. -/
theorem shiftedOutLeft_toNat (a : Byte) : (shiftedOutLeft a).toNat = a.toNat / 128 := by
  have hlt : a.toNat / 2 ^ 7 < 2 := Nat.div_lt_of_lt_mul a.isLt
  rw [shiftedOutLeft, flagByte_toNat, BitVec.getLsbD, Nat.toNat_testBit, Nat.mod_eq_of_lt hlt]
  rfl

/-! ### The results as numbers -/

/-- Subtraction modulo 256 as R109 writes it, `trunc_8(a + 256 - b)`. -/
theorem byte_sub_toNat (a b : Byte) : (a - b).toNat = (a.toNat + 256 - b.toNat) % 256 := by
  have := b.isLt
  rw [BitVec.toNat_sub]
  omega

theorem byte_shiftRight_one_toNat (a : Byte) : (a >>> 1).toNat = a.toNat / 2 := by
  rw [BitVec.toNat_ushiftRight, Nat.shiftRight_eq_div_pow, Nat.pow_one]

theorem byte_shiftLeft_one_toNat (a : Byte) : (a <<< 1).toNat = a.toNat * 2 % 256 := by
  rw [BitVec.toNat_shiftLeft, Nat.shiftLeft_eq, Nat.pow_one]

/-! ### What a register write with `PC + 2` leaves -/

/-- `t` is `s` with the flag in VF, with `val` in VX unless VX is VF, and with `PC + 2`: all a flag-producing instruction
may write (R22). -/
def WritesResultThenFlag (s t : State) (x : Reg) (val flag : Nat) : Prop :=
  (t.getV 15).toNat = flag ∧ (x ≠ 15 → (t.getV x).toNat = val) ∧ (∀ r, r ≠ x → r ≠ 15 → t.getV r = s.getV r) ∧
    t.pc = s.pc + 2 ∧ t = { s with v := t.v, pc := t.pc }

/-- Writing the result and then the flag is what `WritesResultThenFlag` says of the numbers the two bytes stand for. -/
theorem State.setVF_advance_writes (s : State) (x : Reg) {b f : Byte} {val flag : Nat} (hval : b.toNat = val)
    (hflag : f.toNat = flag) : WritesResultThenFlag s (s.setVF x b f).advance x val flag := by
  have hread (r : Reg) : (s.setVF x b f).advance.getV r = if r = 15 then f else if r = x then b else s.getV r :=
    s.getV_setVF x r b f
  refine ⟨?_, fun hx => ?_, fun r hrx hr15 => ?_, rfl, rfl⟩
  · rw [hread, if_pos rfl, hflag]
  · rw [hread, if_neg hx, if_pos rfl, hval]
  · rw [hread, if_neg hr15, if_neg hrx]

/-- A write to VX and `PC + 2` change nothing else, VF only where it is VX. -/
theorem State.setV_advance_frame (s : State) (x : Reg) (b : Byte) :
    (∀ r, r ≠ x → (s.setV x b).advance.getV r = s.getV r) ∧ (s.setV x b).advance.pc = s.pc + 2 ∧
      (s.setV x b).advance = { s with v := (s.setV x b).advance.v, pc := (s.setV x b).advance.pc } :=
  ⟨fun _ hr => s.getV_setV_of_ne b hr, rfl, rfl⟩

/-- Advancing `PC` keeps the value just written to VX. -/
theorem State.setV_advance_getV_self (s : State) (x : Reg) (b : Byte) : (s.setV x b).advance.getV x = b :=
  s.getV_setV_self x b

end Sys2Proof.Machine
end

section
/-!
Proofs for 42_register_arithmetic.md: the register and arithmetic instructions.
-/
namespace Sys2Proof.Proofs
open Sys2Proof Sys2Proof.Machine

/-- Settles O38: the sum modulo 256 is the byte sum, and `carryFlag` is written last. -/
theorem addSetsCarry : Obligations.AddSetsCarry := fun x _ s =>
  ⟨_, rfl, s.setVF_advance_writes x (BitVec.toNat_add _ _) (carryFlag_toNat _ _)⟩

/-- Settles O39: both instructions are `subtractInto`, with the operands exchanged, so one flag rule serves both. -/
theorem subtractionsSetBorrowFlag : Obligations.SubtractionsSetBorrowFlag := by
  rintro x y s _ _ rfl rfl
  have hsub (a b : Byte) := s.setVF_advance_writes x (byte_sub_toNat a b) (subFlag_toNat s.params a b)
  exact ⟨⟨_, rfl, hsub (s.getV x) (s.getV y)⟩, ⟨_, rfl, hsub (s.getV y) (s.getV x)⟩⟩

/-- Settles O41: each shift writes the halved or doubled byte and then the bit it loses. -/
theorem shiftsByOneBit : Obligations.ShiftsByOneBit := fun x s =>
  ⟨⟨_, rfl, s.setVF_advance_writes x (byte_shiftRight_one_toNat _) (shiftedOutRight_toNat _)⟩,
    ⟨_, rfl, s.setVF_advance_writes x (byte_shiftLeft_one_toNat _) (shiftedOutLeft_toNat _)⟩⟩

/-- Settles O35: both instructions are one write to VX, of NN or of the byte sum, and `PC + 2`. -/
theorem immediateLoadAndAdd : Obligations.ImmediateLoadAndAdd := by
  intro x nn s
  constructor
  · exact ⟨_, rfl, fun r => s.getV_setV x r nn, rfl, rfl⟩
  · refine ⟨_, rfl, ?_, s.setV_advance_frame x _⟩
    rw [State.setV_advance_getV_self, BitVec.toNat_add]

/-- Settles O37: each operation is one write to VX, of the bitwise combination of the old VX and VY, and `PC + 2`. -/
theorem logicalOperations : Obligations.LogicalOperations := by
  intro x y s
  refine ⟨⟨_, rfl, fun b _ => ?_, s.setV_advance_frame x _⟩, ⟨_, rfl, fun b _ => ?_, s.setV_advance_frame x _⟩,
    ⟨_, rfl, fun b _ => ?_, s.setV_advance_frame x _⟩⟩
  · rw [State.setV_advance_getV_self, BitVec.getLsbD_or]
  · rw [State.setV_advance_getV_self, BitVec.getLsbD_and]
  · rw [State.setV_advance_getV_self, BitVec.getLsbD_xor]

end Sys2Proof.Proofs
end

section
/-! SUPPORT for 43_memory_index.md. Where an access at `I` faults and where it completes; what a
multi-byte store leaves byte by byte; and the numbers that stand in `I` and in the digits of `FX33`. -/

namespace Sys2Proof.Machine

/-! ### The fault conditions from the bounds on `I` (R134) -/

theorem accessFault_of_inside {s : State} {n : Nat} (h : s.i.toNat + n ≤ 0x1000) : accessFault s n = none :=
  if_neg fun hc => by omega

theorem accessFault_of_outside {s : State} {n : Nat} (h0 : 0 < n) (h : 0x1000 < s.i.toNat + n) :
    accessFault s n = some ⟨.memOob, max s.i.toNat 0x1000⟩ :=
  if_pos ⟨h0, h⟩

/-- Where the reserved-range check lets a store pass, it faults as an access does. -/
theorem storeFault_of_unreserved {s : State} (n : Nat) (h : s.params.reservedWriteFault = true → 0x200 ≤ s.i.toNat) :
    storeFault s n = accessFault s n :=
  if_neg fun ⟨_, hlt, hr⟩ => Nat.not_lt.2 (h hr) hlt

theorem storeFault_of_reserved {s : State} {n : Nat} (h0 : 0 < n) (h : s.i.toNat < 0x200)
    (hr : s.params.reservedWriteFault = true) : storeFault s n = some ⟨.reservedWrite, s.i.toNat⟩ :=
  if_pos ⟨h0, h, hr⟩

/-- No store, of 16 bytes at most, reaches past memory from the reserved range, so past the end there is one fault. -/
theorem storeFault_of_outside {s : State} {n : Nat} (h0 : 0 < n) (hn : n ≤ 16) (h : 0x1000 < s.i.toNat + n) :
    storeFault s n = some ⟨.memOob, max s.i.toNat 0x1000⟩ := by
  rw [storeFault_of_unreserved n fun _ => by omega, accessFault_of_outside h0 h]

/-! ### Memory after consecutive writes -/

theorem Memory.read_writeList_offset (m : Memory) (a : Nat) {bs : List Byte} {k : Nat} (h : k < bs.length) :
    Memory.read (Memory.writeList m a bs) (a + k) = bs.getD k 0 := by
  rw [Memory.read_writeList, if_pos (by omega), Nat.add_sub_cancel_left]

theorem Memory.read_writeList_outside (m : Memory) {a x : Nat} {bs : List Byte} (h : x < a ∨ a + bs.length ≤ x) :
    Memory.read (Memory.writeList m a bs) x = Memory.read m x := by
  rw [Memory.read_writeList, if_neg (by omega)]

/-! ### The decimal digits (R119) and the glyph address (R118) as numbers -/

theorem byte_ofNat_toNat {n : Nat} (h : n < 256) : (BitVec.ofNat 8 n).toNat = n :=
  (BitVec.toNat_ofNat n 8).trans (Nat.mod_eq_of_lt h)

theorem bcdDigits_length (b : Byte) : (bcdDigits b).length = 3 := rfl

/-- The hundreds of a byte are at most 2 and its other digits at most 9, so each digit fits its byte. -/
theorem bcdDigits_toNat (b : Byte) :
    ((bcdDigits b).getD 0 0).toNat = b.toNat / 100 ∧ ((bcdDigits b).getD 1 0).toNat = b.toNat / 10 % 10 ∧
      ((bcdDigits b).getD 2 0).toNat = b.toNat % 10 := by
  have hb := b.isLt
  refine ⟨byte_ofNat_toNat ?_, byte_ofNat_toNat ?_, byte_ofNat_toNat ?_⟩ <;> omega

/-- The largest glyph address is 255 times 5, inside 16 bits (D23). -/
theorem glyphAddress_lt (b : Byte) : glyphAddress b < 2 ^ 16 := by
  have hb := b.isLt
  unfold glyphAddress
  omega

theorem indexFlag_toNat (sum : Nat) : (indexFlag sum).toNat = if sum > 0xFFF then 1 else 0 :=
  flagByte_decide_toNat _

/-- `I` holds a number of 16 bits as it is (R27). -/
theorem State.setI_advance_toNat (s : State) {n : Nat} (h : n < 2 ^ 16) : (s.setI n).advance.i.toNat = n :=
  (BitVec.toNat_ofNat n 16).trans (Nat.mod_eq_of_lt h)

end Sys2Proof.Machine
end

section
/-!
Proofs for 43_memory_index.md: the index register, and the stores and loads at `I`.
-/
namespace Sys2Proof.Proofs
open Sys2Proof Sys2Proof.Machine

/-- Settles O45: inside memory `exec_ldB_ok` gives the completed state, whose three bytes are `bcdDigits`; past the end
or in the reserved range `storeFault` names the fault. -/
theorem decimalDigitsStored : Obligations.DecimalDigitsStored := by
  intro x s
  refine ⟨fun hin hres => ?_, fun hout => ?_, fun hlt hr => ?_⟩
  · have hok : storeFault s 3 = none := (storeFault_of_unreserved 3 hres).trans (accessFault_of_inside (by omega))
    have hbyte (k : Nat) (hk : k < 3) := Memory.read_writeList_offset s.mem s.i.toNat (bs := bcdDigits (s.getV x)) hk
    obtain ⟨hundreds, tens, ones⟩ := bcdDigits_toNat (s.getV x)
    refine ⟨_, exec_ldB_ok hok, ?_, ?_, ?_, fun a ha => Memory.read_writeList_outside s.mem ?_, rfl, rfl⟩
    · exact (congrArg _ (hbyte 0 (by decide))).trans hundreds
    · exact (congrArg _ (hbyte 1 (by decide))).trans tens
    · exact (congrArg _ (hbyte 2 (by decide))).trans ones
    · rw [bcdDigits_length]
      omega
  · exact exec_of_instrFault (storeFault_of_outside (by decide) (by decide) (by omega))
  · exact exec_of_instrFault (storeFault_of_reserved (by decide) hlt hr)

/-- Settles O46: inside memory `exec_storeRegs_ok` gives the completed state, whose bytes from `I` are the register list;
past the end or in the reserved range `storeFault` names the fault. -/
theorem registersStored : Obligations.RegistersStored := by
  intro x s
  have hx : x.val < 16 := x.isLt
  refine ⟨fun hin hres => ?_, fun hout => ?_, fun hlt hr => ?_⟩
  · have hok : storeFault s (x.val + 1) = none :=
      (storeFault_of_unreserved _ hres).trans (accessFault_of_inside (by omega))
    have hlen := s.regsUpTo_length x
    refine ⟨_, exec_storeRegs_ok hok, fun r hr => ?_, fun a ha => ?_, BitVec.toNat_ofNat _ _, rfl, rfl⟩
    · have hk : r.val < (s.regsUpTo x).length := hlen ▸ Nat.lt_succ_of_le hr
      exact (Memory.read_writeList_offset s.mem s.i.toNat hk).trans (s.regsUpTo_getD hr)
    · exact Memory.read_writeList_outside s.mem (by omega)
  · exact exec_of_instrFault (storeFault_of_outside (by omega) (by omega) (by omega))
  · exact exec_of_instrFault (storeFault_of_reserved (by omega) hlt hr)

/-- Settles O47: inside memory `exec_loadRegs_ok` gives the completed state and `getV_loaded` its registers; past the
end `accessFault` names the fault, and it looks at no reserved range. -/
theorem registersLoaded : Obligations.RegistersLoaded := by
  intro x s
  constructor
  · intro hin
    have hok : accessFault s (x.val + 1) = none := accessFault_of_inside (by omega)
    exact ⟨_, exec_loadRegs_ok hok, getV_loaded s x, BitVec.toNat_ofNat _ _, rfl, rfl⟩
  · intro hout
    exact exec_of_instrFault (accessFault_of_outside (by omega) (by omega))

/-- Settles O44: VF, also where it is VX, is read into the sum before the flag is written to it. -/
theorem indexAddSetsRangeFlag : Obligations.IndexAddSetsRangeFlag := by
  intro x s
  refine ⟨_, rfl, BitVec.toNat_ofNat _ _, ?_, fun r hr => State.getV_setV_of_ne _ _ hr, rfl, rfl⟩
  exact (congrArg _ (State.getV_setV_self _ regF _)).trans (indexFlag_toNat _)

/-- Settles O43: both instructions are `setI` and `PC + 2`, of a number that fits in 16 bits. -/
theorem indexLoads : Obligations.IndexLoads := fun s =>
  ⟨fun nnn => ⟨_, rfl, s.setI_advance_toNat (nnn.isLt.trans (by decide)), rfl, rfl⟩,
    fun x => ⟨_, rfl, s.setI_advance_toNat (glyphAddress_lt (s.getV x)), rfl, rfl⟩⟩

end Sys2Proof.Proofs
end

section
/-! SUPPORT for 45_input_timers.md. What each key instruction answers, given the latches and the number in VX. -/

namespace Sys2Proof.Machine

/-! ### The key that VX names (R127, R128) -/

theorem keyFault_of_le {s : State} {x : Reg} (h : (s.getV x).toNat ≤ 15) : keyFault s x = none :=
  if_neg (Nat.not_lt.2 h)

theorem keyFault_of_gt {s : State} {x : Reg} (h : 15 < (s.getV x).toNat) :
    keyFault s x = some ⟨.keyRange, (s.getV x).toNat⟩ :=
  if_pos h

/-- `EX9E` on the key numbered VX. -/
theorem exec_skp_of_key {s : State} {x k : Reg} (h : (s.getV x).toNat = k.val) :
    exec (.skp x) s = .next (s.skipIf (s.keyPressed k)) := by
  rw [exec_skp_ok (keyFault_of_le (by omega)), h, Fin.ofNat_val_eq_self]

/-- `EXA1` on the key numbered VX. -/
theorem exec_sknp_of_key {s : State} {x k : Reg} (h : (s.getV x).toNat = k.val) :
    exec (.sknp x) s = .next (s.skipIf (!s.keyPressed k)) := by
  rw [exec_sknp_ok (keyFault_of_le (by omega)), h, Fin.ofNat_val_eq_self]

/-- A skip writes `PC` only. -/
theorem State.skipIf_frame (s : State) (c : Bool) :
    s.skipIf c = { s with pc := if c = true then s.pc + 4 else s.pc + 2 } := by
  cases c <;> rfl

/-- The opposite skip exchanges the two targets. -/
theorem State.skipIf_not_frame (s : State) (c : Bool) :
    s.skipIf (!c) = { s with pc := if c = true then s.pc + 2 else s.pc + 4 } := by
  cases c <;> rfl

/-! ### Waiting for a key (R129) -/

/-- A pressed key with no pressed key below it is the one `lowestKey` finds. -/
theorem State.lowestKey_of_least {s : State} {k : Reg} (hk : s.keyPressed k = true)
    (hlow : ∀ j : Reg, j < k → s.keyPressed j = false) : s.lowestKey = some k := by
  cases hj : s.lowestKey with
  | none => exact absurd hk (Bool.eq_false_iff.1 (State.lowestKey_none.1 hj k))
  | some j =>
    obtain ⟨hpressed, hleast⟩ := State.lowestKey_some hj
    have hkj : k ≤ j := not_lt.1 fun hlt => Bool.eq_false_iff.1 (hlow j hlt) hpressed
    have hjk : j ≤ k := not_lt.1 fun hlt => Bool.eq_false_iff.1 (hleast k hlt) hk
    rw [le_antisymm hjk hkj]

theorem exec_ldVxK_of_key {s : State} {k : Reg} (x : Reg) (h : s.lowestKey = some k) :
    exec (.ldVxK x) s = .next (s.setV x (BitVec.ofNat 8 k.val)).advance := by
  show execLdVxK x s = _
  rw [execLdVxK, h]

theorem exec_ldVxK_of_none {s : State} (x : Reg) (h : s.lowestKey = none) : exec (.ldVxK x) s = .next s.block := by
  show execLdVxK x s = _
  rw [execLdVxK, h]

end Sys2Proof.Machine
end

section
/-!
Proofs for 45_input_timers.md: the key and timer instructions.
-/
namespace Sys2Proof.Proofs
open Sys2Proof Sys2Proof.Machine

/-- Settles O55: `lowestKey` finds the least set latch, whose number fits a byte, and with no latch set it finds none and
the instruction blocks. -/
theorem waitForKey : Obligations.WaitForKey := by
  intro x s
  constructor
  · intro k hk hlow
    refine ⟨_, exec_ldVxK_of_key x (State.lowestKey_of_least hk hlow), ?_, s.setV_advance_frame x _⟩
    rw [State.setV_advance_getV_self, byte_ofNat_toNat (by omega)]
  · intro hnone
    exact exec_ldVxK_of_none x (State.lowestKey_none.2 hnone)

/-- Settles O54: up to 15 VX numbers a latch, which decides between the two targets; above 15 `keyFault` names the
fault. -/
theorem keySkips : Obligations.KeySkips := by
  intro x s
  constructor
  · intro k hk
    exact ⟨(exec_skp_of_key hk).trans (congrArg _ (s.skipIf_frame (s.keyPressed k))),
      (exec_sknp_of_key hk).trans (congrArg _ (s.skipIf_not_frame (s.keyPressed k)))⟩
  · intro hgt
    exact ⟨exec_of_instrFault (keyFault_of_gt hgt), exec_of_instrFault (keyFault_of_gt hgt)⟩

/-- Settles O56: `FX07` is a write of DT to VX, `FX15` and `FX18` write their timer, each with `PC + 2`. -/
theorem timerMoves : Obligations.TimerMoves := fun x s =>
  ⟨⟨_, rfl, fun r => s.getV_setV x r s.dt, rfl, rfl⟩, rfl, rfl⟩

end Sys2Proof.Proofs
end

section
/-! SUPPORT for 60_exceptions.md. Every instruction, and so the step of every running core, answers a next state; and
the end of the step keeps the latched fault. -/

namespace Sys2Proof.Machine

/-- Whether it completes or raises, an effect answers a next state. -/
theorem completeOrRaise_next (s : State) (r : Except FaultStatus State) : ∃ t, completeOrRaise s r = .next t := by
  obtain ⟨t, -, h⟩ | ⟨f, -, h⟩ := completeOrRaise_cases s r
  · exact ⟨t, h⟩
  · exact ⟨_, h⟩

/-- No instruction is refused and none ends the machine: those that can fault complete or raise, `FX0A` completes or
blocks, and the others complete. -/
theorem exec_next (i : Instr) (s : State) : ∃ t, exec i s = .next t := by
  cases i with
  | ret | call | drw | skp | sknp | ldB | storeRegs | loadRegs => exact completeOrRaise_next s _
  | ldVxK x =>
    cases hk : s.lowestKey with
    | some k => exact ⟨_, exec_ldVxK_of_key x hk⟩
    | none => exact ⟨_, exec_ldVxK_of_none x hk⟩
  | _ => exact ⟨_, rfl⟩

theorem step_next_of_running {s : State} (hr : s.running) : ∃ t, step s = .next t := by
  rw [step_of_running hr]
  cases fetch s with
  | error f => exact ⟨_, rfl⟩
  | ok w =>
    cases hd : decode w with
    | ok i =>
      obtain ⟨u, hu⟩ := exec_next i s.clearOutputs
      simp only [hd, hu]
      exact ⟨_, rfl⟩
    | error e =>
      simp only [hd]
      exact ⟨_, rfl⟩

@[simp] theorem finishStep_fault (c : Config) (s : State) : (finishStep c s).fault = s.fault := by
  obtain ⟨h, -⟩ | ⟨h, -⟩ := finishStep_cases c s
  · rw [h]
  · rw [h, tick_fault]

end Sys2Proof.Machine
end

section
/-!
Proofs for 60_exceptions.md: which faults a step raises, and what a faulting step leaves.
-/
namespace Sys2Proof.Proofs
open Sys2Proof Sys2Proof.Machine

/-- Settles O7: the step latches a fault by `raiseFault`, which touches nothing but `FAULT` and the outputs, and a step
that latches none runs on. -/
theorem faultingStepKeepsStateBefore : Obligations.FaultingStepKeepsStateBefore := by
  intro s t hr h ht
  obtain ⟨f, -, -, rfl⟩ | ⟨-, -, u, hu, rfl⟩ := step_running_cases hr h
  · rfl
  · obtain ⟨hrun, -⟩ := hu.finish hr s.params
    exact absurd hrun ht

/-- Settles O8: the step answers, and it latches the fault of the table or, where there is none, executes the word and
keeps `FAULT`. -/
theorem stepsFaultExactlyAsTabulated : Obligations.StepsFaultExactlyAsTabulated := by
  refine ⟨fun s hr => ?_, rfl⟩
  obtain ⟨t, h⟩ := step_next_of_running hr
  refine ⟨t, h, ?_⟩
  obtain ⟨f, hf, -, rfl⟩ | ⟨-, hf, u, hu, rfl⟩ := step_running_cases hr h
  · rw [hf]
    rfl
  · rw [hf, finishStep_fault, hu.fault]
    rfl

end Sys2Proof.Proofs
end

section
/-! SUPPORT for 70_reset_and_hazards.md. What `load_program` answers for an image that fits and for one that does not,
and the one shape of the state that `initialize` leaves. -/

namespace Sys2Proof.Machine

/-- An image that fits is copied from 0x200 (R154). -/
theorem State.loadProgram_of_le (s : State) {bytes : List Byte} (h : bytes.length ≤ maxProgram) :
    s.loadProgram bytes = (.loaded, { s with mem := Memory.writeList s.mem programBase bytes }) :=
  if_neg (Nat.not_lt.2 h)

/-- An image that does not fit is refused whole (R155). -/
theorem State.loadProgram_of_gt (s : State) {bytes : List Byte} (h : maxProgram < bytes.length) :
    s.loadProgram bytes = (.tooLarge, s) :=
  if_pos h

/-- What `initialize` leaves, of a new machine or of one in any state, is the initial state up to the count of draws,
which a restart keeps (R151, D28; log 7). -/
theorem initialized_eq_initial {s t : State} {c : Config} (h : t = State.initial c ∨ (t = s.restart ∧ c = s.params)) :
    ∃ d, t = { State.initial c with draws := d } := by
  obtain rfl | ⟨rfl, rfl⟩ := h
  · exact ⟨0, rfl⟩
  · exact ⟨s.draws, rfl⟩

end Sys2Proof.Machine
end

section
/-!
Proofs for 70_reset_and_hazards.md: what `initialize` and `load_program` leave.
-/
namespace Sys2Proof.Proofs
open Sys2Proof Sys2Proof.Machine

/-- Settles O58: the load is one write of consecutive bytes from 0x200, and the law of such a write says what every
address then reads as. -/
theorem loadPlacesImage : Obligations.LoadPlacesImage := fun s bytes h =>
  ⟨_, s.loadProgram_of_le h, Memory.read_writeList s.mem programBase bytes, rfl⟩

/-- Settles O57: both ways of `initialize` leave the initial state up to the count of draws, whose memory reads as the
reset contents of the machine's own parameters. -/
theorem initializeResetsEverything : Obligations.InitializeResetsEverything := by
  intro s t c h
  obtain ⟨d, rfl⟩ := initialized_eq_initial h
  have hfont (j : Fin 80) : Memory.read (State.initial c).mem j.val = c.font.get j :=
    (read_initial c j.val).trans (resetByte_font c j)
  have hzero (a : Nat) (ha : 80 ≤ a) : Memory.read (State.initial c).mem a = 0 :=
    (read_initial c a).trans (resetByte_of_le c ha)
  exact ⟨hfont, hzero, Vector.get_replicate 16 0x00, rfl, rfl, rfl, Vector.get_replicate 16 0x0000, rfl, rfl,
    FrameBuffer.pixel_blank, Vector.get_replicate 16 false, rfl, rfl⟩

/-- Settles O59: 3584 is the largest image, and a longer one is answered before any byte is written. -/
theorem loadTooLargeChangesNothing : Obligations.LoadTooLargeChangesNothing := fun s _ h => s.loadProgram_of_gt h

end Sys2Proof.Proofs
end

section
/-! SUPPORT for 40_cycle.md R81. The state an instruction that completes leaves, field by field: each function below
names the instructions that write its field, and every other instruction keeps it. With `instrFault` it says everything
`exec` can answer. -/

namespace Sys2Proof.Machine

/-! ### The fields a completed instruction writes (10_state.md R17, the "written by" column) -/

/-- The bytes an instruction stores from `I` upward, if it is a store (R119, R120). -/
def storedBytes (s : State) : Instr → List Byte
  | .ldB x => bcdDigits (s.getV x)
  | .storeRegs x => s.regsUpTo x
  | _ => []

/-- The bytes `DXYN` and `FX65` read from `I` upward. -/
def bytesAtI (s : State) (n : Nat) : List Byte := (List.range n).map fun k => Memory.read s.mem (s.i.toNat + k)

/-- The register file after a completed instruction (R21, R22). -/
def regsAfter (s : State) : Instr → Vector Byte 16
  | .ldByte x nn => (s.setV x nn).v
  | .addByte x nn => (s.setV x (s.getV x + nn)).v
  | .ldReg x y => (s.setV x (s.getV y)).v
  | .orReg x y => (s.setV x (s.getV x ||| s.getV y)).v
  | .andReg x y => (s.setV x (s.getV x &&& s.getV y)).v
  | .xorReg x y => (s.setV x (s.getV x ^^^ s.getV y)).v
  | .addReg x y => (s.setVF x (s.getV x + s.getV y) (carryFlag (s.getV x) (s.getV y))).v
  | .subReg x y => (s.setVF x (s.getV x - s.getV y) (subFlag s.params (s.getV x) (s.getV y))).v
  | .shr x => (s.setVF x (s.getV x >>> 1) (shiftedOutRight (s.getV x))).v
  | .subnReg x y => (s.setVF x (s.getV y - s.getV x) (subFlag s.params (s.getV y) (s.getV x))).v
  | .shl x => (s.setVF x (s.getV x <<< 1) (shiftedOutLeft (s.getV x))).v
  | .rnd x nn => (s.setV x (Config.rnd s.draws &&& nn)).v
  | .drw x y n => (drawSprite s.params x y (bytesAtI s n.toNat) s).v
  | .ldVxDt x => (s.setV x s.dt).v
  | .ldVxK x => match s.lowestKey with
    | some k => (s.setV x (BitVec.ofNat 8 k.val)).v
    | none => s.v
  | .addI x => (s.setV regF (indexFlag (s.i.toNat + (s.getV x).toNat))).v
  | .loadRegs x => (s.setVsFrom 0 (bytesAtI s (x.val + 1))).v
  | _ => s.v

/-- `I` after a completed instruction (R27). -/
def indexAfter (s : State) : Instr → Word
  | .ldI nnn => BitVec.ofNat 16 nnn.toNat
  | .addI x => BitVec.ofNat 16 (s.i.toNat + (s.getV x).toNat)
  | .ldF x => BitVec.ofNat 16 (glyphAddress (s.getV x))
  | .storeRegs x | .loadRegs x => BitVec.ofNat 16 (s.i.toNat + x.val + 1)
  | _ => s.i

/-- Where a skip sends `PC` (R98). -/
def skipTarget (pc : Word) (c : Bool) : Word := if c = true then pc + 4 else pc + 2

/-- `PC` after a completed instruction (40_cycle.md section 6). -/
def pcAfter (s : State) : Instr → Word
  | .ret => s.stack[s.sp.val - 1]'(by omega)
  | .jp nnn | .call nnn => addr16 nnn
  | .jpV0 nnn => addr16 nnn + (s.getV 0).setWidth 16
  | .seByte x nn => skipTarget s.pc (s.getV x == nn)
  | .sneByte x nn => skipTarget s.pc (s.getV x != nn)
  | .seReg x y => skipTarget s.pc (s.getV x == s.getV y)
  | .sneReg x y => skipTarget s.pc (s.getV x != s.getV y)
  | .skp x => skipTarget s.pc (s.keyPressed (Fin.ofNat 16 (s.getV x).toNat))
  | .sknp x => skipTarget s.pc (!s.keyPressed (Fin.ofNat 16 (s.getV x).toNat))
  | .ldVxK _ => if s.lowestKey = none then s.pc else s.pc + 2
  | _ => s.pc + 2

/-- The stack after a completed instruction (R28): only `2NNN` writes it. -/
def stackAfter (s : State) : Instr → Vector Word 16
  | .call _ => if h : s.sp.val < 16 then s.stack.set s.sp.val (s.pc + 2) h else s.stack
  | _ => s.stack

/-- `SP` after a completed instruction (R29). -/
def spAfter (s : State) : Instr → Fin 17
  | .ret => ⟨s.sp.val - 1, by omega⟩
  | .call _ => if h : s.sp.val < 16 then ⟨s.sp.val + 1, by omega⟩ else s.sp
  | _ => s.sp

/-- The frame buffer after a completed instruction (R36). -/
def fbAfter (s : State) : Instr → FrameBuffer
  | .cls => FrameBuffer.blank
  | .drw x y n => (drawSprite s.params x y (bytesAtI s n.toNat) s).fb
  | _ => s.fb

/-- The count of draws after a completed instruction (log 7). -/
def drawsAfter (s : State) : Instr → Nat
  | .rnd _ _ => s.draws + 1
  | _ => s.draws

/-- The outputs after a completed instruction: only a stall writes them (R129). -/
def outAfter (s : State) : Instr → Outputs
  | .ldVxK _ => if s.lowestKey = none then s.block.out else s.out
  | _ => s.out

/-- The state a completed instruction leaves. The key latches, `FAULT` and the parameters are written by none. -/
def completed (s : State) (i : Instr) : State :=
  { s with
    mem := Memory.writeList s.mem s.i.toNat (storedBytes s i)
    v := regsAfter s i
    i := indexAfter s i
    pc := pcAfter s i
    stack := stackAfter s i
    sp := spAfter s i
    dt := dtBeforeTick (.ok i) s
    st := stBeforeTick (.ok i) s
    fb := fbAfter s i
    out := outAfter s i
    draws := drawsAfter s i }

/-! ### What `exec` answers -/

/-- `FX0A` waits for a key: with one pressed it completes, without one it stalls (R129). -/
theorem exec_ldVxK_completed (s : State) (x : Reg) : exec (.ldVxK x) s = .next (completed s (.ldVxK x)) := by
  cases hk : s.lowestKey with
  | some k =>
    rw [exec_ldVxK_of_key x hk]
    simp only [completed, regsAfter, pcAfter, outAfter, hk]
    rfl
  | none =>
    rw [exec_ldVxK_of_none x hk]
    simp only [completed, regsAfter, pcAfter, outAfter, hk]
    rfl

/-- An instruction whose fault condition does not hold completes. -/
theorem exec_of_no_fault {s : State} {i : Instr} (h : instrFault s i = none) : exec i s = .next (completed s i) := by
  cases i with
  | ldVxK x => exact exec_ldVxK_completed s x
  | ret =>
    obtain ⟨_, he⟩ := exec_ret_ok h
    exact he
  | call nnn =>
    obtain ⟨hsp, he⟩ := exec_call_ok h
    rw [he]
    simp only [completed, stackAfter, spAfter, dif_pos hsp]
    rfl
  | skp x => exact (exec_skp_ok h).trans (congrArg _ (s.skipIf_frame _))
  | sknp x => exact (exec_sknp_ok h).trans (congrArg _ (s.skipIf_frame _))
  | seByte | sneByte | seReg | sneReg => exact congrArg _ (s.skipIf_frame _)
  | ldB x => exact exec_ldB_ok h
  | storeRegs x => exact exec_storeRegs_ok h
  | loadRegs x => exact exec_loadRegs_ok h
  | drw x y n => exact exec_drw_ok h
  | _ => rfl

/-- All `exec` can answer: the state before with the fault of R134 latched, or the completed state. -/
theorem exec_cases {i : Instr} {s t : State} (h : exec i s = .next t) :
    (∃ f, instrFault s i = some f ∧ t = s.raiseFault f) ∨ (instrFault s i = none ∧ t = completed s i) := by
  cases hf : instrFault s i with
  | some f => cases (exec_of_instrFault hf).symm.trans h; exact .inl ⟨f, rfl, rfl⟩
  | none => cases (exec_of_no_fault hf).symm.trans h; exact .inr ⟨rfl, rfl⟩

end Sys2Proof.Machine
end

section
/-! SUPPORT for the invariants of the machine. Each way a state can change — a latched fault, a completed instruction,
the end of the step, `initialize`, `load_program` — keeps `State.Inv`, and each is answered. -/

namespace Sys2Proof.Machine

/-! ### Faults and the end of the step -/

/-- Latching a fault of R134 keeps the invariant. -/
theorem State.Inv.raiseFault {s : State} {f : FaultStatus} (hs : s.Inv) (hf : f.legal) : (s.raiseFault f).Inv :=
  { hs with fault_legal := hf }

theorem State.Inv.clearOutputs {s : State} (hs : s.Inv) : s.clearOutputs.Inv := { hs with }

/-- Ticking or not, the end of a step keeps the invariant. -/
theorem State.Inv.finishStep {s : State} (hs : s.Inv) (c : Config) : (finishStep c s).Inv := by
  obtain ⟨h, -⟩ | ⟨h, -⟩ := finishStep_cases c s
  · rw [h]; exact hs
  · rw [h]; exact { hs with }

/-! ### The faults of R134 -/

theorem accessFault_legal {s : State} {n : Nat} {f : FaultStatus} (h : accessFault s n = some f) : f.legal := by
  obtain ⟨-, -, rfl⟩ := accessFault_some h
  have hi := s.i.isLt
  show 0xFFF < max s.i.toNat 0x1000 ∧ max s.i.toNat 0x1000 ≤ 0xFFFF
  omega

theorem storeFault_legal {s : State} {n : Nat} {f : FaultStatus} (h : storeFault s n = some f) : f.legal := by
  unfold storeFault at h
  split at h
  · next hc => cases h; exact hc.2.1
  · exact accessFault_legal h

theorem keyFault_legal {s : State} {x : Reg} {f : FaultStatus} (h : keyFault s x = some f) : f.legal := by
  have hx := (s.getV x).isLt
  unfold keyFault at h
  split at h <;> cases h
  show 0xF < (s.getV x).toNat ∧ (s.getV x).toNat ≤ 0xFF
  omega

/-- Every fault an instruction raises is one of the pairs of R134. -/
theorem instrFault_legal {s : State} {i : Instr} {f : FaultStatus} (h : instrFault s i = some f) : f.legal := by
  cases i with
  | ret =>
    change (if s.sp = 0 then some _ else none) = some f at h
    split at h <;> cases h
    rfl
  | call nnn =>
    change (if s.sp = 16 then some _ else none) = some f at h
    split at h <;> cases h
    rfl
  | skp x | sknp x => exact keyFault_legal h
  | drw x y n => exact accessFault_legal h
  | loadRegs x => exact accessFault_legal h
  | ldB x | storeRegs x => exact storeFault_legal h
  | _ => cases h

/-! ### Completed instructions -/

theorem word_add_toNat_le (a b : Word) : (a + b).toNat ≤ a.toNat + b.toNat := by
  rw [BitVec.toNat_add]
  exact Nat.mod_le _ _

/-- The address after a fetched instruction is at most 0x1000. -/
theorem word_add_two_le {pc : Word} (hp : pc.toNat ≤ 0xFFE) : (pc + 2).toNat ≤ 0x1000 :=
  (word_add_toNat_le pc 2).trans (Nat.add_le_add_right hp 2)

theorem skipTarget_le (pc : Word) (c : Bool) : (skipTarget pc c).toNat ≤ pc.toNat + 4 := by
  cases c
  · exact (word_add_toNat_le pc 2).trans (Nat.add_le_add_left (by decide) _)
  · exact word_add_toNat_le pc 4

/-- From a fetched instruction no value above 0x10FE is written to `PC` (R26). -/
theorem pcAfter_le {s : State} (hs : s.Inv) (hp : s.pc.toNat ≤ 0xFFE) (i : Instr) : (pcAfter s i).toNat ≤ 0x10FE := by
  have hskip (c : Bool) : (skipTarget s.pc c).toNat ≤ 0x10FE := (skipTarget_le s.pc c).trans (by omega)
  have hnext : (s.pc + 2).toNat ≤ 0x10FE := (word_add_two_le hp).trans (by decide)
  cases i with
  | ret => exact (hs.stack_bounded ⟨s.sp.val - 1, by omega⟩).trans (by decide)
  | jp nnn | call nnn =>
    show (addr16 nnn).toNat ≤ _
    rw [addr16_toNat]
    omega
  | jpV0 nnn =>
    have hb := (s.getV 0).isLt
    show (addr16 nnn + (s.getV 0).setWidth 16).toNat ≤ _
    rw [addr16_add_byte_toNat]
    omega
  | seByte | sneByte | seReg | sneReg | skp | sknp => exact hskip _
  | ldVxK x =>
    show (if s.lowestKey = none then s.pc else s.pc + 2).toNat ≤ _
    split
    · exact hs.pc_bounded
    · exact hnext
  | _ => exact hnext

/-- The one value written to the stack is the address after a call, at most 0x1000 (R96, D4). -/
theorem stackAfter_le {s : State} (hs : s.Inv) (hp : s.pc.toNat ≤ 0xFFE) (i : Instr) (k : Fin 16) :
    ((stackAfter s i).get k).toNat ≤ 0x1000 := by
  unfold stackAfter
  split
  · split
    · next hsp =>
      rw [stack_get_set]
      split
      · exact word_add_two_le hp
      · exact hs.stack_bounded k
    · exact hs.stack_bounded k
  · exact hs.stack_bounded k

/-- A store that does not fault writes inside memory and, by the parameter, above the reserved range. -/
theorem storedBytes_inside {s : State} {i : Instr} (h : instrFault s i = none) :
    storedBytes s i = [] ∨ (s.i.toNat + (storedBytes s i).length ≤ 0x1000 ∧
      (s.params.reservedWriteFault = true → programBase ≤ s.i.toNat)) := by
  cases i with
  | ldB x => exact .inr (storeFault_none (n := 3) (by decide) h)
  | storeRegs x =>
    right
    show s.i.toNat + (s.regsUpTo x).length ≤ 0x1000 ∧ _
    rw [s.regsUpTo_length]
    exact storeFault_none (by omega) h
  | _ => exact .inl rfl

/-- An instruction that completes keeps the invariant. -/
theorem State.Inv.completed {s : State} {i : Instr} (hs : s.Inv) (hp : s.pc.toNat ≤ 0xFFE)
    (h : instrFault s i = none) : (completed s i).Inv where
  memory_canonical := by
    show Memory.wf (Memory.writeList s.mem s.i.toNat (storedBytes s i)) = true
    obtain hb | ⟨hin, -⟩ := storedBytes_inside h
    · rw [hb]; exact hs.memory_canonical
    · exact Memory.wf_writeList _ hs.memory_canonical hin
  pc_bounded := pcAfter_le hs hp i
  stack_bounded := stackAfter_le hs hp i
  reserved_intact := by
    intro hr a ha
    show Memory.read (Memory.writeList s.mem s.i.toNat (storedBytes s i)) a = _
    obtain hb | ⟨-, hbase⟩ := storedBytes_inside h
    · rw [hb]; exact hs.reserved_intact hr a ha
    · rw [Memory.read_writeList_outside s.mem (.inl (ha.trans_le (hbase hr)))]
      exact hs.reserved_intact hr a ha
  fault_legal := hs.fault_legal

/-- Whatever `exec` answers from a fetched instruction keeps the invariant. -/
theorem State.Inv.exec {s t : State} {i : Instr} (hs : s.Inv) (hp : s.pc.toNat ≤ 0xFFE) (h : exec i s = .next t) :
    t.Inv := by
  obtain ⟨f, hf, rfl⟩ | ⟨hf, rfl⟩ := exec_cases h
  · exact hs.raiseFault (instrFault_legal hf)
  · exact hs.completed hp hf

/-- An unrecognized word, which moves `PC` by 2, keeps the invariant. -/
theorem State.Inv.advance {s : State} (hs : s.Inv) (hp : s.pc.toNat ≤ 0xFFE) : s.advance.Inv :=
  { hs with pc_bounded := (word_add_two_le hp).trans (by decide) }

/-- Every step keeps the invariant. -/
theorem State.Inv.step {s t : State} (hs : s.Inv) (h : step s = .next t) : t.Inv := by
  obtain ⟨-, rfl⟩ | ⟨-, hp, rfl⟩ | ⟨-, hp, i, u, -, he, rfl⟩ | ⟨-, hp, -, rfl⟩ := step_cases h
  · exact hs.clearOutputs
  · exact hs.raiseFault ⟨hp, hs.pc_bounded⟩
  · exact (hs.clearOutputs.exec hp he).finishStep s.params
  · exact (hs.clearOutputs.advance hp).finishStep s.params

/-! ### The host -/

/-- `initialize` of a machine with any parameters leaves a state with the invariant. -/
theorem initial_inv (c : Config) : (State.initial c).Inv where
  memory_canonical := wf_initial c
  pc_bounded := by show (0x0200 : Word).toNat ≤ 0x10FE; decide
  stack_bounded k := by
    show ((Vector.replicate 16 (0x0000 : Word)).get k).toNat ≤ 0x1000
    rw [Vector.get_replicate]
    decide
  reserved_intact _ a _ := read_initial c a
  fault_legal := rfl

/-- An image stands above the reserved range and inside memory. -/
theorem State.Inv.loadProgram {s : State} (hs : s.Inv) (bytes : List Byte) : (s.loadProgram bytes).2.Inv := by
  by_cases h : bytes.length ≤ maxProgram
  · rw [s.loadProgram_of_le h]
    have hin : programBase + bytes.length ≤ memSize := by unfold maxProgram at h; unfold programBase memSize; omega
    refine { hs with memory_canonical := Memory.wf_writeList _ hs.memory_canonical hin, reserved_intact := ?_ }
    intro hr a ha
    exact (Memory.read_writeList_outside s.mem (.inl ha)).trans (hs.reserved_intact hr a ha)
  · rw [s.loadProgram_of_gt (Nat.lt_of_not_le h)]
    exact hs

@[simp] theorem State.loadProgram_params (s : State) (bytes : List Byte) :
    (s.loadProgram bytes).2.params = s.params := by
  unfold State.loadProgram
  split <;> rfl

@[simp] theorem State.loadProgram_fault (s : State) (bytes : List Byte) : (s.loadProgram bytes).2.fault = s.fault := by
  unfold State.loadProgram
  split <;> rfl

@[simp] theorem finishStep_params (c : Config) (s : State) : (finishStep c s).params = s.params := by
  obtain ⟨h, -⟩ | ⟨h, -⟩ := finishStep_cases c s
  · rw [h]
  · rw [h, tick_params]

theorem exec_params {i : Instr} {s t : State} (h : exec i s = .next t) : t.params = s.params := by
  obtain ⟨f, -, rfl⟩ | ⟨-, rfl⟩ := exec_cases h <;> rfl

theorem step_params {s t : State} (h : step s = .next t) : t.params = s.params := by
  obtain ⟨-, rfl⟩ | ⟨-, -, rfl⟩ | ⟨-, -, i, u, -, he, rfl⟩ | ⟨-, -, -, rfl⟩ := step_cases h
  · rfl
  · rfl
  · rw [finishStep_params, exec_params he, State.clearOutputs_params]
  · rw [finishStep_params, State.advance_params, State.clearOutputs_params]

/-- The step of every state, running or faulted, answers. -/
theorem step_next (s : State) : ∃ t, step s = .next t := by
  by_cases hr : s.running
  · exact step_next_of_running hr
  · exact ⟨_, step_of_faulted hr⟩

/-- One action of the host is answered, and keeps the invariant and the parameters. -/
theorem performAction_keeps (a : HostAction) {s : State} (hs : s.Inv) :
    ∃ t, performAction a s = .next t ∧ t.Inv ∧ t.params = s.params := by
  cases a with
  | restart => exact ⟨_, rfl, { initial_inv s.params with }, rfl⟩
  | load bytes => exact ⟨_, rfl, hs.loadProgram bytes, s.loadProgram_params bytes⟩
  | keys latches => exact ⟨_, rfl, { hs with }, rfl⟩
  | step =>
    obtain ⟨t, h⟩ := step_next s
    exact ⟨t, h, hs.step h, step_params h⟩

/-- A first action that answers hands its state to the rest. -/
theorem performAll_cons {a : HostAction} {s t : State} (h : performAction a s = .next t) (as : List HostAction) :
    performAll (a :: as) s = performAll as t := by
  rw [performAll, h]

/-! ### A latched fault (R138, D30) -/

/-- No action of the host but `initialize` clears a latched fault. -/
theorem performAction_keeps_fault {a : HostAction} {s : State} (hs : s.fault.cause ≠ .noFault) (ha : a ≠ .restart) :
    ∃ t, performAction a s = .next t ∧ t.fault = s.fault := by
  cases a with
  | restart => exact absurd rfl ha
  | load bytes => exact ⟨_, rfl, s.loadProgram_fault bytes⟩
  | keys latches => exact ⟨_, rfl, rfl⟩
  | step => exact ⟨_, step_of_faulted hs, rfl⟩

theorem performAll_keeps_fault {as : List HostAction} {s : State} (hs : s.fault.cause ≠ .noFault)
    (has : .restart ∉ as) : ∃ t, performAll as s = .next t ∧ t.fault = s.fault := by
  induction as generalizing s with
  | nil => exact ⟨s, rfl, rfl⟩
  | cons a as ih =>
    rw [List.mem_cons, not_or] at has
    obtain ⟨ha, has⟩ := has
    obtain ⟨u, hu, hfault⟩ := performAction_keeps_fault hs (Ne.symm ha)
    obtain ⟨t, ht, hfault'⟩ := ih (hfault ▸ hs) has
    exact ⟨t, (performAll_cons hu as).trans ht, hfault'.trans hfault⟩

/-- The first step of a faulted core clears the outputs, and the steps after it find them clear. -/
theorem performAll_steps_of_faulted {s : State} (hs : s.fault.cause ≠ .noFault) (n : Nat) :
    performAll (List.replicate (n + 1) .step) s = .next s.clearOutputs := by
  induction n generalizing s with
  | zero => exact performAll_cons (a := .step) (step_of_faulted hs) []
  | succ n ih => exact (performAll_cons (a := .step) (step_of_faulted hs) _).trans (ih (s := s.clearOutputs) hs)

end Sys2Proof.Machine
end

section
/-!
Proofs for the invariants of the machine, and for the answers of the step and of the host's actions.
-/
namespace Sys2Proof.Proofs
open Sys2Proof Sys2Proof.Machine

/-- Settles O14: a fault latches a pair of R134, a completed instruction bounds what it writes to `PC`, the stack and
memory, and the end of the step touches none of these. -/
theorem stepKeepsInvariant : Obligations.StepKeepsInvariant := fun _ _ hs h => hs.step h

/-- Settles O16, by induction on the list of actions. -/
theorem hostActionsKeepInvariant : Obligations.HostActionsKeepInvariant := by
  intro as
  induction as with
  | nil => exact fun s hs => ⟨s, rfl, hs, rfl⟩
  | cons a as ih =>
    intro s hs
    obtain ⟨u, hu, hinv, hparams⟩ := performAction_keeps a hs
    obtain ⟨t, ht, hinv', hparams'⟩ := ih u hinv
    exact ⟨t, (performAll_cons hu as).trans ht, hinv', hparams'.trans hparams⟩

/-- Settles O15: the reset state is that of `initialize` with the default parameters. -/
theorem resetHasInvariant : Obligations.ResetHasInvariant := by
  unfold Obligations.ResetHasInvariant
  rw [← initial_config]
  exact initial_inv config

/-- Settles O60: `initial_config` says the two states are one, and the glyphs are read from the default font. -/
theorem resetTakesDefaultParameters : Obligations.ResetTakesDefaultParameters :=
  ⟨initial_config.symm, rfl, rfl, rfl, rfl, by decide⟩

/-- Settles O5: a running core answers by `step_next_of_running`, and a faulted one only reports. -/
theorem everyStepAnswersNextState : Obligations.EveryStepAnswersNextState := step_next

/-- Settles O6: no action but `initialize` clears `FAULT`, and a step of a faulted core is `clearOutputs`, which done
again changes nothing. -/
theorem faultIsStickyUntilRestart : Obligations.FaultIsStickyUntilRestart := fun _ hs =>
  ⟨fun _ => performAll_keeps_fault hs, performAll_steps_of_faulted hs, rfl⟩

end Sys2Proof.Proofs
end

section
/-! SUPPORT for 30_encoding.md. What a word that decodes is, said once: the encoder's word of the instruction it decodes
to, or a shift with its ignored `Y`. -/

namespace Sys2Proof

theorem wellFormed_sys_iff {nnn : Addr12} :
    (Instr.sys nnn).wellFormed = true ↔ nnn ≠ 0x0E0 ∧ nnn ≠ 0x0EE := by
  simp [Instr.wellFormed]

/-- Only two words of group 0 with operands are not `SYS` (R65, R68). -/
theorem decode_formatNNN_sys {nnn : Addr12} (h : (Instr.sys nnn).wellFormed = true) :
    decode (formatNNN 0x0 nnn) = .ok (.sys nnn) := by
  obtain ⟨h0, hE⟩ := wellFormed_sys_iff.1 h
  rw [decode_of_op0 (fieldOp_formatNNN 0x0 nnn)]
  have hfield := fieldNNN_formatNNN 0x0 nnn
  obtain ⟨hw, -⟩ | ⟨hw, -⟩ | ⟨-, -, hi⟩ := decodeGroup0_cases (formatNNN 0x0 nnn)
  · rw [hw] at hfield
    exact absurd hfield.symm h0
  · rw [hw] at hfield
    exact absurd hfield.symm hE
  · rw [hi, hfield]

/-- The word of a well-formed instruction decodes to it. -/
theorem decode_encode {i : Instr} (h : i.wellFormed = true) : decode (encode i) = .ok i := by
  cases i with
  | sys nnn => exact decode_formatNNN_sys h
  | cls | ret => rfl
  | jp nnn | call nnn | ldI nnn | jpV0 nnn => simp [encode, decode]
  | seByte x nn | sneByte x nn | ldByte x nn | addByte x nn | rnd x nn => simp [encode, decode]
  | seReg x y | sneReg x y | drw x y n => simp [encode, decode]
  | ldReg x y | orReg x y | andReg x y | xorReg x y | addReg x y | subReg x y | subnReg x y | shr x | shl x =>
    simp [encode, decode, decodeGroup8]
  | skp x | sknp x => simp [encode, decode, decodeGroupE]
  | ldVxDt x | ldVxK x | ldDtVx x | ldStVx x | addI x | ldF x | ldB x | storeRegs x | loadRegs x =>
    simp [encode, decode, decodeGroupF]

/-! ### Words put together from fields with known values -/

theorem formatNNN_of_op {w : Word} {op : Nibble} (hop : fieldOp w = op) : formatNNN op (fieldNNN w) = w :=
  hop ▸ formatNNN_fields w

theorem formatXNN_of_op {w : Word} {op : Nibble} (hop : fieldOp w = op) :
    formatXNN op (fieldX w) (fieldNN w) = w :=
  hop ▸ formatXNN_fields w

theorem formatX_of_op {w : Word} {op : Nibble} {nn : Byte} (hop : fieldOp w = op) (hnn : fieldNN w = nn) :
    formatXNN op (fieldX w) nn = w :=
  hnn ▸ formatXNN_of_op hop

theorem formatXYN_of_op {w : Word} {op : Nibble} (hop : fieldOp w = op) :
    formatXYN op (fieldX w) (fieldY w) (fieldN w) = w :=
  hop ▸ formatXYN_fields w

theorem formatXY_of_op {w : Word} {op n : Nibble} (hop : fieldOp w = op) (hn : fieldN w = n) :
    formatXYN op (fieldX w) (fieldY w) n = w :=
  hn ▸ formatXYN_of_op hop

/-! ### What a word that decodes is -/

/-- `w` is the word of the well-formed `i`, the ignored `Y` of the shifts apart (D27). -/
def IsWordOf (w : Word) (i : Instr) : Prop :=
  i.wellFormed = true ∧
    (encode i = w ∨ (∃ x y, i = .shr x ∧ formatXYN 0x8 x y 0x6 = w) ∨ (∃ x y, i = .shl x ∧ formatXYN 0x8 x y 0xE = w))

theorem isWordOf_group0 {w : Word} (hop : fieldOp w = 0x0) : IsWordOf w (decodeGroup0 w) := by
  obtain ⟨rfl, hi⟩ | ⟨rfl, hi⟩ | ⟨h0, hE, hi⟩ := decodeGroup0_cases w
  · exact ⟨rfl, .inl rfl⟩
  · exact ⟨rfl, .inl rfl⟩
  · have hw := formatNNN_of_op hop
    have hne0 : fieldNNN w ≠ 0x0E0 := fun h => h0 (by rw [← hw, h]; rfl)
    have hneE : fieldNNN w ≠ 0x0EE := fun h => hE (by rw [← hw, h]; rfl)
    rw [hi]
    exact ⟨wellFormed_sys_iff.2 ⟨hne0, hneE⟩, .inl hw⟩

theorem isWordOf_group8 {w : Word} {i : Instr} (hop : fieldOp w = 0x8) (h : decodeGroup8 w = .ok i) :
    IsWordOf w i := by
  have hw {n : Nibble} (hn : fieldN w = n) := formatXY_of_op hop hn
  obtain ⟨hn, rfl⟩ | ⟨hn, rfl⟩ | ⟨hn, rfl⟩ | ⟨hn, rfl⟩ | ⟨hn, rfl⟩ | ⟨hn, rfl⟩ | ⟨hn, rfl⟩ | ⟨hn, rfl⟩ | ⟨hn, rfl⟩ :=
    decodeGroup8_cases h
  · exact ⟨rfl, .inl (hw hn)⟩
  · exact ⟨rfl, .inl (hw hn)⟩
  · exact ⟨rfl, .inl (hw hn)⟩
  · exact ⟨rfl, .inl (hw hn)⟩
  · exact ⟨rfl, .inl (hw hn)⟩
  · exact ⟨rfl, .inl (hw hn)⟩
  · exact ⟨rfl, .inr (.inl ⟨_, _, rfl, hw hn⟩)⟩
  · exact ⟨rfl, .inl (hw hn)⟩
  · exact ⟨rfl, .inr (.inr ⟨_, _, rfl, hw hn⟩)⟩

theorem isWordOf_groupE {w : Word} {i : Instr} (hop : fieldOp w = 0xE) (h : decodeGroupE w = .ok i) :
    IsWordOf w i := by
  obtain ⟨hn, rfl⟩ | ⟨hn, rfl⟩ := decodeGroupE_cases h <;> exact ⟨rfl, .inl (formatX_of_op hop hn)⟩

theorem isWordOf_groupF {w : Word} {i : Instr} (hop : fieldOp w = 0xF) (h : decodeGroupF w = .ok i) :
    IsWordOf w i := by
  obtain ⟨hn, rfl⟩ | ⟨hn, rfl⟩ | ⟨hn, rfl⟩ | ⟨hn, rfl⟩ | ⟨hn, rfl⟩ | ⟨hn, rfl⟩ | ⟨hn, rfl⟩ | ⟨hn, rfl⟩ | ⟨hn, rfl⟩ :=
    decodeGroupF_cases h <;> exact ⟨rfl, .inl (formatX_of_op hop hn)⟩

/-- A word that decodes is the word of its instruction, by the group its top nibble selects. -/
theorem isWordOf_of_decode {w : Word} {i : Instr} (h : decode w = .ok i) : IsWordOf w i := by
  obtain hop | hop | hop | hop | hop | hop | hop | hop | hop | hop | hop | hop | hop | hop | hop | hop :=
    nibble_cases (fieldOp w)
  · cases (decode_of_op0 hop).symm.trans h; exact isWordOf_group0 hop
  · cases (decode_of_op1 hop).symm.trans h; exact ⟨rfl, .inl (formatNNN_of_op hop)⟩
  · cases (decode_of_op2 hop).symm.trans h; exact ⟨rfl, .inl (formatNNN_of_op hop)⟩
  · cases (decode_of_op3 hop).symm.trans h; exact ⟨rfl, .inl (formatXNN_of_op hop)⟩
  · cases (decode_of_op4 hop).symm.trans h; exact ⟨rfl, .inl (formatXNN_of_op hop)⟩
  · rw [decode_of_op5 hop] at h
    split at h <;> cases h
    next hn => exact ⟨rfl, .inl (formatXY_of_op hop hn)⟩
  · cases (decode_of_op6 hop).symm.trans h; exact ⟨rfl, .inl (formatXNN_of_op hop)⟩
  · cases (decode_of_op7 hop).symm.trans h; exact ⟨rfl, .inl (formatXNN_of_op hop)⟩
  · exact isWordOf_group8 hop ((decode_of_op8 hop).symm.trans h)
  · rw [decode_of_op9 hop] at h
    split at h <;> cases h
    next hn => exact ⟨rfl, .inl (formatXY_of_op hop hn)⟩
  · cases (decode_of_opA hop).symm.trans h; exact ⟨rfl, .inl (formatNNN_of_op hop)⟩
  · cases (decode_of_opB hop).symm.trans h; exact ⟨rfl, .inl (formatNNN_of_op hop)⟩
  · cases (decode_of_opC hop).symm.trans h; exact ⟨rfl, .inl (formatXNN_of_op hop)⟩
  · cases (decode_of_opD hop).symm.trans h; exact ⟨rfl, .inl (formatXYN_of_op hop)⟩
  · exact isWordOf_groupE hop ((decode_of_opE hop).symm.trans h)
  · exact isWordOf_groupF hop ((decode_of_opF hop).symm.trans h)

/-- Writing `Y` as 0 takes the middle nibble off a word of format `F_XY`. -/
theorem formatXYN_zero_toNat (op n : Nibble) (x y : Reg) :
    (formatXYN op x 0 n).toNat =
      (formatXYN op x y n).toNat - (formatXYN op x y n).toNat % 256 + (formatXYN op x y n).toNat % 16 := by
  have hy := y.isLt
  have hn := n.isLt
  have h0 : (0 : Reg).val = 0 := rfl
  rw [formatXYN_toNat, formatXYN_toNat, h0]
  omega

/-! ### The opcode table -/

/-- The word of every instruction selects its own row. -/
theorem encode_selects_row (i : Instr) : encode i &&& rowMask i = rowMatch i := by
  cases i with
  | cls | ret => rfl
  | sys nnn | jp nnn | call nnn | ldI nnn | jpV0 nnn => exact Laws.EncodedAsRow.formatNNN_masked _ nnn
  | seByte x nn | sneByte x nn | ldByte x nn | addByte x nn | rnd x nn =>
    exact Laws.EncodedAsRow.formatXNN_masked _ x nn
  | drw x y n => exact Laws.EncodedAsRow.formatXYN_masked _ x y n
  | shr x | shl x => exact Laws.EncodedAsRow.formatXY_masked _ x 0 _
  | seReg x y | sneReg x y | ldReg x y | orReg x y | andReg x y | xorReg x y | addReg x y | subReg x y | subnReg x y =>
    exact Laws.EncodedAsRow.formatXY_masked _ x y _
  | skp x | sknp x | ldVxDt x | ldVxK x | ldDtVx x | ldStVx x | addI x | ldF x | ldB x | storeRegs x | loadRegs x =>
    exact Laws.EncodedAsRow.formatX_masked _ x _

/-- The two whole words of group 0 decode to no `SYS` (R65). -/
theorem ne_of_decode_sys {w : Word} {n : Addr12} (h : decode w = .ok (.sys n)) : w ≠ 0x00E0 ∧ w ≠ 0x00EE := by
  constructor
  · rintro rfl
    cases (show decode 0x00E0 = .ok .cls from rfl).symm.trans h
  · rintro rfl
    cases (show decode 0x00EE = .ok .ret from rfl).symm.trans h

/-! ### The unrecognized words (R69) -/

theorem fieldOp_eq_iff (w : Word) (n : Nibble) : fieldOp w = n ↔ w.toNat / 4096 = n.toNat := by
  rw [← BitVec.toNat_inj, fieldOp_toNat]

theorem fieldN_eq_iff (w : Word) (n : Nibble) : fieldN w = n ↔ w.toNat % 16 = n.toNat := by
  rw [← BitVec.toNat_inj, fieldN_toNat]

theorem fieldNN_eq_iff (w : Word) (n : Byte) : fieldNN w = n ↔ w.toNat % 256 = n.toNat := by
  rw [← BitVec.toNat_inj, fieldNN_toNat]

theorem exists_ite_error_iff {p : Prop} [Decidable p] {i : Instr} {u : Unrecognized} :
    (∃ e, (if p then Except.ok i else .error u) = .error e) ↔ ¬ p := by
  by_cases h : p
  · simp [h]
  · simp [h]

/-- Only groups 5, 8, 9, E and F have unrecognized words. -/
theorem decode_error_iff (w : Word) : (∃ e, decode w = .error e) ↔
    (fieldOp w = 0x5 ∧ fieldN w ≠ 0x0) ∨ (fieldOp w = 0x8 ∧ ∃ e, decodeGroup8 w = .error e) ∨
    (fieldOp w = 0x9 ∧ fieldN w ≠ 0x0) ∨ (fieldOp w = 0xE ∧ ∃ e, decodeGroupE w = .error e) ∨
    (fieldOp w = 0xF ∧ ∃ e, decodeGroupF w = .error e) := by
  obtain hop | hop | hop | hop | hop | hop | hop | hop | hop | hop | hop | hop | hop | hop | hop | hop :=
    nibble_cases (fieldOp w)
  · simp [decode_of_op0 hop, hop]
  · simp [decode_of_op1 hop, hop]
  · simp [decode_of_op2 hop, hop]
  · simp [decode_of_op3 hop, hop]
  · simp [decode_of_op4 hop, hop]
  · rw [decode_of_op5 hop, exists_ite_error_iff]; simp [hop]
  · simp [decode_of_op6 hop, hop]
  · simp [decode_of_op7 hop, hop]
  · simp [decode_of_op8 hop, hop]
  · rw [decode_of_op9 hop, exists_ite_error_iff]; simp [hop]
  · simp [decode_of_opA hop, hop]
  · simp [decode_of_opB hop, hop]
  · simp [decode_of_opC hop, hop]
  · simp [decode_of_opD hop, hop]
  · simp [decode_of_opE hop, hop]
  · simp [decode_of_opF hop, hop]

end Sys2Proof
end

section
/-!
Proofs for 30_encoding.md: decoding, encoding and the opcode table.
-/
namespace Sys2Proof.Proofs
open Sys2Proof Sys2Proof.Machine

/-- Settles O22: the decoder reads each field of a format as the encoder put it in, and a well-formed `SYS` is not one
of the two whole words. -/
theorem decodeOfEncodeIsIdentity : Obligations.DecodeOfEncodeIsIdentity := fun _ => decode_encode

/-- Settles O23: a word that decodes is the word of its instruction, or a shift whose middle nibble the encoder writes
as 0. -/
theorem encodeOfDecodeIsTheWord : Obligations.EncodeOfDecodeIsTheWord := by
  intro w i h
  obtain ⟨hwf, hw⟩ := isWordOf_of_decode h
  refine ⟨hwf, fun hshift => ?_, fun hshr hshl => ?_⟩
  · obtain rfl | ⟨x, y, rfl, rfl⟩ | ⟨x, y, rfl, rfl⟩ := hw
    · obtain ⟨x, rfl | rfl⟩ := hshift <;> exact formatXYN_zero_toNat _ _ x 0
    · exact formatXYN_zero_toNat _ _ x y
    · exact formatXYN_zero_toNat _ _ x y
  · obtain hw | ⟨x, -, hi, -⟩ | ⟨x, -, hi, -⟩ := hw
    · exact hw
    · exact absurd hi (hshr x)
    · exact absurd hi (hshl x)

/-- Settles O25: the word of an instruction selects its row, and the mask of a shift leaves `Y` out. -/
theorem decodedWordSelectsItsRow : Obligations.DecodedWordSelectsItsRow := by
  intro w i h
  constructor
  · obtain ⟨-, rfl | ⟨x, y, rfl, rfl⟩ | ⟨x, y, rfl, rfl⟩⟩ := isWordOf_of_decode h
    · exact encode_selects_row i
    · exact Laws.EncodedAsRow.formatXY_masked _ x y _
    · exact Laws.EncodedAsRow.formatXY_masked _ x y _
  · rintro ⟨n, rfl⟩
    exact ne_of_decode_sys h

/-- Settles O24: each group with unrecognized words rejects the sub-operations it has no instruction for, and its fields
are the digits of the word. -/
theorem unrecognizedWordsExactly : Obligations.UnrecognizedWordsExactly := by
  intro w
  rw [decode_error_iff, decodeGroup8_error, decodeGroupE_error, decodeGroupF_error]
  have hrest : w.toNat % 16 ∈ [0x8, 0x9, 0xA, 0xB, 0xC, 0xD, 0xF] ↔ w.toNat % 16 ≠ 0x0 ∧ w.toNat % 16 ≠ 0x1 ∧
      w.toNat % 16 ≠ 0x2 ∧ w.toNat % 16 ≠ 0x3 ∧ w.toNat % 16 ≠ 0x4 ∧ w.toNat % 16 ≠ 0x5 ∧ w.toNat % 16 ≠ 0x6 ∧
      w.toNat % 16 ≠ 0x7 ∧ w.toNat % 16 ≠ 0xE := by
    simp only [List.mem_cons, List.not_mem_nil, or_false]
    omega
  rw [hrest]
  simp [fieldOp_eq_iff, fieldN_eq_iff, fieldNN_eq_iff]

/-- Settles O26: each word is decoded by computation. -/
theorem sampleWordsDecode : Obligations.SampleWordsDecode :=
  ⟨rfl, rfl, rfl, rfl, rfl, rfl, rfl, rfl, rfl, rfl, rfl, rfl, rfl, rfl⟩

end Sys2Proof.Proofs
end

section
/-! SUPPORT for 10_state.md section 1 and 40_cycle.md section 6. Which instructions write a field, which registers they
write, where `PC` goes, and what they do not read: each read off the fields of `completed`. -/

namespace Sys2Proof.Machine

/-! ### Who writes a field -/

/-- Only the two stores have bytes to store, so only they write memory. -/
theorem storedBytes_cases (s : State) (i : Instr) :
    (∃ x, i = .ldB x ∧ (storedBytes s i).length = 3) ∨
    (∃ x : Reg, i = .storeRegs x ∧ (storedBytes s i).length = x.val + 1) ∨ storedBytes s i = [] := by
  unfold storedBytes
  split
  · exact .inl ⟨_, rfl, rfl⟩
  · exact .inr (.inl ⟨_, rfl, s.regsUpTo_length _⟩)
  · exact .inr (.inr rfl)

theorem completed_mem_ne {s : State} {i : Instr} (h : (completed s i).mem ≠ s.mem) :
    (∃ x, i = .ldB x) ∨ ∃ x, i = .storeRegs x := by
  obtain ⟨x, hi, -⟩ | ⟨x, hi, -⟩ | hb := storedBytes_cases s i
  · exact .inl ⟨x, hi⟩
  · exact .inr ⟨x, hi⟩
  · exact absurd (congrArg (Memory.writeList s.mem s.i.toNat) hb) h

theorem indexAfter_ne {s : State} {i : Instr} (h : indexAfter s i ≠ s.i) :
    (∃ n, i = .ldI n) ∨ (∃ x, i = .addI x) ∨ (∃ x, i = .ldF x) ∨ (∃ x, i = .storeRegs x) ∨ ∃ x, i = .loadRegs x := by
  cases i with
  | ldI | addI | ldF | storeRegs | loadRegs => simp
  | _ => exact absurd rfl h

theorem stackAfter_ne {s : State} {i : Instr} (h : stackAfter s i ≠ s.stack) : ∃ n, i = .call n := by
  cases i with
  | call n => exact ⟨n, rfl⟩
  | _ => exact absurd rfl h

theorem spAfter_ne {s : State} {i : Instr} (h : spAfter s i ≠ s.sp) : (∃ n, i = .call n) ∨ i = .ret := by
  cases i with
  | call n => exact .inl ⟨n, rfl⟩
  | ret => exact .inr rfl
  | _ => exact absurd rfl h

theorem dtBeforeTick_ne {s : State} {i : Instr} (h : dtBeforeTick (.ok i) s ≠ s.dt) : ∃ x, i = .ldDtVx x := by
  cases i with
  | ldDtVx x => exact ⟨x, rfl⟩
  | _ => exact absurd rfl h

theorem stBeforeTick_ne {s : State} {i : Instr} (h : stBeforeTick (.ok i) s ≠ s.st) : ∃ x, i = .ldStVx x := by
  cases i with
  | ldStVx x => exact ⟨x, rfl⟩
  | _ => exact absurd rfl h

theorem fbAfter_ne {s : State} {i : Instr} (h : fbAfter s i ≠ s.fb) : i = .cls ∨ ∃ x y n, i = .drw x y n := by
  cases i with
  | cls => exact .inl rfl
  | drw x y n => exact .inr ⟨x, y, n, rfl⟩
  | _ => exact absurd rfl h

theorem drawsAfter_ne {s : State} {i : Instr} (h : drawsAfter s i ≠ s.draws) : ∃ x nn, i = .rnd x nn := by
  cases i with
  | rnd x nn => exact ⟨x, nn, rfl⟩
  | _ => exact absurd rfl h

/-- A byte that differs after the instruction is one of those it stored. -/
theorem completed_read_ne {s : State} {i : Instr} {a : Nat}
    (h : Memory.read (completed s i).mem a ≠ Memory.read s.mem a) :
    s.i.toNat ≤ a ∧ a < s.i.toNat + (storedBytes s i).length := by
  by_contra hout
  exact h (Memory.read_writeList_outside s.mem (by omega))

/-- A register that the tables of R21 and R23 do not let the instruction write keeps its byte. -/
theorem getV_completed_of_not_written {s : State} {i : Instr} {r : Reg} (h : registerWrites i r = false) :
    (completed s i).getV r = s.getV r := by
  have hdest {x : Reg} (b : Byte) (hw : (r == x) = false) : (s.setV x b).getV r = s.getV r :=
    s.getV_setV_of_ne b (ne_of_beq_false hw)
  have hflag {x : Reg} (b f : Byte) (hw : (r == x || r == regF) = false) : (s.setVF x b f).getV r = s.getV r := by
    obtain ⟨hx, hF⟩ := Bool.or_eq_false_iff.1 hw
    exact (State.getV_setV_of_ne _ f (ne_of_beq_false hF)).trans (hdest b hx)
  cases i with
  | ldByte | addByte | ldReg | orReg | andReg | xorReg | rnd | ldVxDt => exact hdest _ h
  | addReg | subReg | subnReg | shr | shl => exact hflag _ _ h
  | drw | addI => exact hdest _ h
  | ldVxK x =>
    cases hk : s.lowestKey with
    | some k =>
      have hv : (completed s (.ldVxK x)).v = (s.setV x (BitVec.ofNat 8 k.val)).v := by
        simp only [completed, regsAfter, hk]
      exact (State.getV_congr hv r).trans (hdest _ h)
    | none =>
      have hv : (completed s (.ldVxK x)).v = s.v := by simp only [completed, regsAfter, hk]
      exact State.getV_congr hv r
  | loadRegs x =>
    exact (getV_loaded s x r).trans (if_neg (of_decide_eq_false h))
  | _ => rfl

/-! ### Where `PC` goes -/

theorem skipTarget_cases (pc : Word) (c : Bool) : skipTarget pc c = pc + 2 ∨ skipTarget pc c = pc + 4 := by
  cases c
  · exact .inl rfl
  · exact .inr rfl

/-- The ways `PC` goes after a completed instruction: on by 2 or 4, or to the target of a jump, call or return, or
nowhere on a stall (40_cycle.md section 6). -/
theorem pcAfter_cases {s : State} {i : Instr} (h : instrFault s i = none) :
    pcAfter s i = s.pc + 2 ∨ pcAfter s i = s.pc + 4 ∨
    (∃ nnn, (i = .jp nnn ∨ i = .call nnn) ∧ (pcAfter s i).toNat = nnn.toNat) ∨
    (∃ nnn, i = .jpV0 nnn ∧ (pcAfter s i).toNat = nnn.toNat + (s.getV 0).toNat) ∨
    (i = .ret ∧ ∃ k : Fin 16, k.val + 1 = s.sp.val ∧ pcAfter s i = s.stack.get k) ∨
    ((∃ x, i = .ldVxK x) ∧ (∀ k, s.keyPressed k = false) ∧ pcAfter s i = s.pc) := by
  cases i with
  | seByte | sneByte | seReg | sneReg | skp | sknp => exact (skipTarget_cases s.pc _).imp_right .inl
  | jp nnn => exact .inr (.inr (.inl ⟨nnn, .inl rfl, addr16_toNat nnn⟩))
  | call nnn => exact .inr (.inr (.inl ⟨nnn, .inr rfl, addr16_toNat nnn⟩))
  | jpV0 nnn => exact .inr (.inr (.inr (.inl ⟨nnn, rfl, addr16_add_byte_toNat nnn (s.getV 0)⟩)))
  | ret =>
    obtain ⟨hsp, -⟩ := exec_ret_ok h
    have htop : s.sp.val - 1 + 1 = s.sp.val := Nat.sub_add_cancel (Nat.pos_of_ne_zero hsp)
    exact .inr (.inr (.inr (.inr (.inl ⟨rfl, ⟨s.sp.val - 1, by omega⟩, htop, rfl⟩))))
  | ldVxK x =>
    by_cases hk : s.lowestKey = none
    · exact .inr (.inr (.inr (.inr (.inr ⟨⟨x, rfl⟩, State.lowestKey_none.1 hk, if_pos hk⟩))))
    · exact .inl (if_neg hk)
  | _ => exact .inl rfl

@[simp] theorem finishStep_pc (c : Config) (s : State) : (finishStep c s).pc = s.pc := by
  obtain ⟨h, -⟩ | ⟨h, -⟩ := finishStep_cases c s
  · rw [h]
  · rw [h, tick_pc]

/-! ### What an instruction does not read -/

/-- Loading registers looks at the register file only. -/
theorem State.setVsFrom_v_congr {s t : State} (h : s.v = t.v) (k : Nat) (bs : List Byte) :
    (s.setVsFrom k bs).v = (t.setVsFrom k bs).v := by
  induction bs generalizing s t k with
  | nil => exact h
  | cons b bs ih => exact ih (by rw [State.setV_v, State.setV_v, h]) _

theorem completed_setKeys {i : Instr} (s : State) (latches : Vector Bool 16) (h1 : ∀ x, i ≠ .skp x)
    (h2 : ∀ x, i ≠ .sknp x) (h3 : ∀ x, i ≠ .ldVxK x) :
    completed (s.setKeys latches) i = (completed s i).setKeys latches := by
  cases i with
  | skp x => exact absurd rfl (h1 x)
  | sknp x => exact absurd rfl (h2 x)
  | ldVxK x => exact absurd rfl (h3 x)
  | loadRegs x =>
    have hv := State.setVsFrom_v_congr (s.setKeys_v latches) 0 (bytesAtI s (x.val + 1))
    exact congrArg (fun v => { (completed s (.loadRegs x)).setKeys latches with v := v }) hv
  | _ => rfl

theorem instrFault_setKeys (s : State) (latches : Vector Bool 16) (i : Instr) :
    instrFault (s.setKeys latches) i = instrFault s i := by
  cases i <;> rfl

/-- `s` with another `ST`. -/
def State.withSound (s : State) (b : Byte) : State := { s with st := b }

theorem instrFault_withSound (s : State) (b : Byte) (i : Instr) : instrFault (s.withSound b) i = instrFault s i := by
  cases i <;> rfl

theorem completed_withSound {i : Instr} (s : State) (b : Byte) (h : ∀ x, i ≠ .ldStVx x) :
    completed (s.withSound b) i = (completed s i).withSound b := by
  cases i with
  | ldStVx x => exact absurd rfl (h x)
  | loadRegs x =>
    have hv := State.setVsFrom_v_congr (s := s.withSound b) (t := s) rfl 0 (bytesAtI s (x.val + 1))
    exact congrArg (fun v => { (completed s (.loadRegs x)).withSound b with v := v }) hv
  | _ => rfl

/-! ### The end of the step -/

theorem finishStep_eq (c : Config) (s : State) :
    finishStep c s = if s.fault.cause ≠ .noFault then s
      else if s.out.blocked = true ∧ c.tickDuringStall = false then s else tick s := by
  by_cases h : s.running
  · rw [finishStep_of_running c h, if_neg (not_not.2 (show s.fault.cause = .noFault from h))]
  · rw [finishStep_of_faulted c (s.faulted_iff.2 h), if_pos (show s.fault.cause ≠ .noFault from h)]

/-- The step of a running core whose word decodes executes it and ends the step. -/
theorem step_of_decode {s t : State} {i : Instr} (hr : s.running) (hp : s.pc.toNat ≤ 0xFFE)
    (hd : decode s.nextWord = .ok i) (h : exec i s.clearOutputs = .next t) :
    step s = .next (finishStep s.params t) := by
  rw [step_of_running hr, fetch_eq, if_neg (by omega)]
  simp only [hd, h]
  rfl

end Sys2Proof.Machine
end

section
/-!
Proofs for the frame of every instruction: what it writes, where `PC` goes, and what it does not read.
-/
namespace Sys2Proof.Proofs
open Sys2Proof Sys2Proof.Machine

/-- Settles O9: the instruction that completed sends `PC` one of the ways of `pcAfter_cases`, an unrecognized word moves
it by 2, and the end of the step keeps it. -/
theorem pcAfterCompletedStep : Obligations.PcAfterCompletedStep := by
  intro s t hr h ht
  obtain ⟨hf, -⟩ | ⟨-, -, rfl⟩ | ⟨-, -, i, u, hd, he, rfl⟩ | ⟨-, -, -, rfl⟩ := step_cases h
  · rw [State.faulted_of_running hr] at hf
    cases hf
  · cases ht
  · obtain ⟨f, hf, rfl⟩ | ⟨hf, rfl⟩ := exec_cases he
    · rw [State.running, finishStep_fault] at ht
      exact absurd ht (instrFault_cause_ne hf)
    · simp only [hd, Except.ok.injEq, finishStep_pc]
      exact pcAfter_cases hf
  · exact .inl (finishStep_pc _ _)

/-- Settles O17: an instruction that faults writes no memory, and one that completes writes the bytes it stores. -/
theorem onlyStoresChangeMemory : Obligations.OnlyStoresChangeMemory := by
  intro i s t a h hne
  obtain ⟨f, -, rfl⟩ | ⟨-, rfl⟩ := exec_cases h
  · exact absurd rfl hne
  · obtain ⟨hle, hlt⟩ := completed_read_ne hne
    obtain ⟨x, rfl, hlen⟩ | ⟨x, rfl, hlen⟩ | hb := storedBytes_cases s i
    · exact .inl ⟨x, rfl, hle, by omega⟩
    · exact .inr ⟨x, rfl, hle, by omega⟩
    · rw [hb] at hlt
      exact absurd hle (Nat.not_le.2 hlt)

/-- Settles O18: an instruction that faults writes none of these fields, and for one that completes each field names its
writers. -/
theorem stateWrittenOnlyByNamedInstructions : Obligations.StateWrittenOnlyByNamedInstructions := by
  intro i s t h
  obtain ⟨f, -, rfl⟩ | ⟨-, rfl⟩ := exec_cases h
  · exact ⟨rfl, rfl, absurd rfl, absurd rfl, absurd rfl, absurd rfl, absurd rfl, absurd rfl, absurd rfl, absurd rfl⟩
  · exact ⟨rfl, rfl, completed_mem_ne, indexAfter_ne, stackAfter_ne, spAfter_ne, dtBeforeTick_ne, stBeforeTick_ne,
      fbAfter_ne, drawsAfter_ne⟩

/-- Settles O19: an instruction that faults writes no register, and one that completes writes as the tables say. -/
theorem registersWrittenOnlyAsTabulated : Obligations.RegistersWrittenOnlyAsTabulated := by
  intro i s t r h hw
  obtain ⟨f, -, rfl⟩ | ⟨-, rfl⟩ := exec_cases h
  · rfl
  · exact getV_completed_of_not_written hw

/-- Settles O20: other latches change neither the fault condition nor the completed state. -/
theorem keysReadOnlyByKeyInstructions : Obligations.KeysReadOnlyByKeyInstructions := by
  intro i s t latches h1 h2 h3 h
  obtain ⟨f, hf, rfl⟩ | ⟨hf, rfl⟩ := exec_cases h
  · exact exec_of_instrFault ((instrFault_setKeys s latches i).trans hf)
  · rw [exec_of_no_fault ((instrFault_setKeys s latches i).trans hf), completed_setKeys s latches h1 h2 h3]

/-- Settles O21: another `ST` changes neither the fault condition nor the completed state, and `FX18` overwrites it. -/
theorem soundTimerIsNotReadable : Obligations.SoundTimerIsNotReadable := by
  intro i s t b h
  constructor
  · intro hne
    change exec i (s.withSound b) = .next (t.withSound b)
    obtain ⟨f, hf, rfl⟩ | ⟨hf, rfl⟩ := exec_cases h
    · exact exec_of_instrFault ((instrFault_withSound s b i).trans hf)
    · rw [exec_of_no_fault ((instrFault_withSound s b i).trans hf), completed_withSound s b hne]
  · rintro ⟨x, rfl⟩
    exact h

/-- Settles O1: a running core with a fetched word executes it, and the end of the step is `finishStep_eq`. -/
theorem stepRunsDecodedInstruction : Obligations.StepRunsDecodedInstruction := by
  intro s t i hr hp hd h
  rw [step_of_decode hr hp hd h, finishStep_eq]

end Sys2Proof.Proofs
end

section
/-! SUPPORT for 44_display.md. What `DXYN` draws, in terms of the pixels the sprite covers. -/

namespace Sys2Proof.Machine

/-- VF after a draw is `drawFlag` of the hit and the old VF (R125). -/
theorem drawSprite_getV_flag (c : Config) (x y : Reg) (rows : List Byte) (s : State) :
    (drawSprite c x y rows s).getV 15 =
      drawFlag c (drawRows (s.getV x).toNat (s.getV y).toNat rows (s.fb, false)).2 (s.getV 15) :=
  State.getV_setV_self _ _ _

theorem bytesAtI_length (s : State) (n : Nat) : (bytesAtI s n).length = n := by
  rw [bytesAtI, List.length_map, List.length_range]

/-- The rows read from `I` XOR the sprite's bits into the frame buffer, and hit exactly where a set bit meets a lit
pixel (R122, R125). -/
theorem drawRows_sprite (s : State) (x y : Reg) (n : Nibble) :
    (∀ px py, (fbAfter s (.drw x y n)).pixel px py = (s.fb.pixel px py ^^ spriteBit s x y n px py)) ∧
    ((drawRows (s.getV x).toNat (s.getV y).toNat (bytesAtI s n.toNat) (s.fb, false)).2 = true ↔
      spriteHits s x y n) := by
  have hlen : (bytesAtI s n.toNat).length ≤ 32 := by
    rw [bytesAtI_length]
    omega
  obtain ⟨hpixel, hhit⟩ := drawRows_spec (s.getV x).toNat (s.getV y).toNat (bytesAtI s n.toNat) (s.fb, false) hlen
  simp only [bytesAtI, bitAt_memory, Bool.false_eq_true, false_or] at hpixel hhit
  exact ⟨hpixel, hhit⟩

/-- A sprite without rows, or inside memory, is read without a fault. -/
theorem accessFault_of_sprite {s : State} {n : Nibble} (h : n = 0 ∨ s.i.toNat + n.toNat ≤ 0x1000) :
    accessFault s n.toNat = none := by
  obtain rfl | h := h
  · rfl
  · exact accessFault_of_inside h

/-- The sprite depends on its place, on `I` and on memory only. -/
theorem spriteBit_congr {s u : State} {x y : Reg} (hx : u.getV x = s.getV x) (hy : u.getV y = s.getV y)
    (hi : u.i = s.i) (hmem : u.mem = s.mem) (n : Nibble) : spriteBit u x y n = spriteBit s x y n := by
  funext px py
  rw [spriteBit, spriteBit, hx, hy, hi, hmem]

end Sys2Proof.Machine
end

section
/-!
Proofs for 44_display.md: `DXYN` and its properties.
-/
namespace Sys2Proof.Proofs
open Sys2Proof Sys2Proof.Machine

/-- Settles O50: a sprite inside memory is drawn as `drawRows_sprite` says and VF is `drawFlag`; past the end
`accessFault` names the fault. -/
theorem drawXorsSpriteAndReportsCollision : Obligations.DrawXorsSpriteAndReportsCollision := by
  intro x y n s
  constructor
  · intro hin
    obtain ⟨hpixel, hhit⟩ := drawRows_sprite s x y n
    have hflag := drawSprite_getV_flag s.params x y (bytesAtI s n.toNat) s
    refine ⟨_, exec_of_no_fault (accessFault_of_sprite hin), hpixel, fun hits => ?_, fun hmiss => ?_,
      fun r hr => State.getV_setV_of_ne _ _ hr, rfl, rfl⟩
    · rw [hhit.2 hits] at hflag
      exact hflag
    · rw [Bool.eq_false_iff.2 (fun hc => hmiss (hhit.1 hc))] at hflag
      exact hflag
  · intro hn hout
    exact exec_of_instrFault (accessFault_of_outside (Nat.pos_of_ne_zero fun h0 => hn (BitVec.eq_of_toNat_eq h0)) hout)

/-- Settles O51: VF is written last, with `drawFlag`. -/
theorem drawFlagUnderEitherSetting : Obligations.DrawFlagUnderEitherSetting := by
  intro c x y rows s
  rw [drawSprite_getV_flag]
  constructor
  · intro hit
    rw [hit]
    rfl
  · intro hmiss
    rw [hmiss]
    rfl

/-- Settles O52: XOR with the same sprite bit twice is the identity, and the second draw meets a lit pixel exactly where
the first lit a dark one. -/
theorem drawingTwiceRestores : Obligations.DrawingTwiceRestores := by
  intro x y n s t u w hin ht hfb hx hy hi hmem hw
  obtain ⟨t', ht', hpixel, -⟩ := (drawXorsSpriteAndReportsCollision x y n s).1 hin
  obtain ⟨w', hw', hpixel', hhit, hmiss, -⟩ := (drawXorsSpriteAndReportsCollision x y n u).1 (hi ▸ hin)
  cases ht.symm.trans ht'
  cases hw.symm.trans hw'
  have hsprite := spriteBit_congr hx hy hi hmem n
  rw [hfb, hsprite] at hpixel'
  have hits : spriteHits u x y n ↔ ∃ px py, s.fb.pixel px py = false ∧ t.fb.pixel px py = true := by
    simp only [spriteHits, hfb, hsprite, hpixel]
    refine exists_congr fun px => exists_congr fun py => ?_
    cases s.fb.pixel px py <;> cases spriteBit s x y n px py <;> simp
  constructor
  · refine FrameBuffer.ext_pixel fun px py => ?_
    rw [hpixel', hpixel, Bool.xor_assoc, Bool.xor_self, Bool.xor_false]
  · intro hclear
    rw [← hits]
    by_cases h : spriteHits u x y n
    · exact iff_of_true (hhit h) h
    · rw [hmiss h, if_pos hclear]
      exact iff_of_false (by decide) h

/-- Settles O53: on the blank frame buffer that `00E0` leaves, XOR with the sprite's bit is that bit, and no bit meets a
lit pixel. -/
theorem drawAfterClearNeverCollides : Obligations.DrawAfterClearNeverCollides := by
  intro x y n s t u hin ht hu
  have hplace : t.i = s.i ∧ t.params = s.params ∧ spriteBit t x y n = spriteBit s x y n := by
    cases ht
    exact ⟨rfl, rfl, rfl⟩
  have hdark (px : Fin 64) (py : Fin 32) : t.fb.pixel px py = false := by
    cases ht
    exact FrameBuffer.pixel_blank px py
  obtain ⟨hi, hparams, hsprite⟩ := hplace
  obtain ⟨u', hu', hpixel, -, hmiss, -⟩ := (drawXorsSpriteAndReportsCollision x y n t).1 (hi ▸ hin)
  cases hu.symm.trans hu'
  constructor
  · intro px py
    rw [hpixel, hdark, hsprite, Bool.false_xor]
  · intro hclear
    have hno : ¬ spriteHits t x y n := fun ⟨px, py, hlit, _⟩ => Bool.eq_false_iff.1 (hdark px py) hlit
    rw [hmiss hno, hparams, if_pos hclear]

end Sys2Proof.Proofs
end

section
/-! SUPPORT for 42_register_arithmetic.md. The flag of a subtraction as one condition on the polarity and the
operands. -/

namespace Sys2Proof.Machine

theorem flagByte_eq_one_iff (b : Bool) : flagByte b = 1 ↔ b = true := by cases b <;> decide

theorem flagByte_eq_one_or_zero (b : Bool) : flagByte b = 1 ∨ flagByte b = 0 := by cases b <;> decide

/-- VF reports no borrow or a borrow, as the polarity says (D9). -/
theorem subFlag_eq_flagByte (c : Config) (a b : Byte) :
    subFlag c a b = flagByte (decide
      ((c.subVfPolarity = .noBorrow ∧ b.toNat ≤ a.toNat) ∨ (c.subVfPolarity = .borrow ∧ a.toNat < b.toNat))) := by
  unfold subFlag
  cases c.subVfPolarity with
  | noBorrow => simp
  | borrow => simp

end Sys2Proof.Machine
end

section
/-!
Proofs for 42_register_arithmetic.md: the copy, the flag of a subtraction under either polarity, and the random byte.
-/
namespace Sys2Proof.Proofs
open Sys2Proof Sys2Proof.Machine

/-- Settles O36: `8XY0` is one write to VX, of the old VY, and `PC + 2`. -/
theorem registerCopy : Obligations.RegisterCopy := fun x y s =>
  ⟨_, rfl, fun r => s.getV_setV x r (s.getV y), rfl, rfl⟩

/-- Settles O40: VF is written last, with `subFlag`, and the polarity decides which comparison it reports. -/
theorem subtractFlagUnderEitherPolarity : Obligations.SubtractFlagUnderEitherPolarity := by
  intro c x a b s
  have hvf : (subtractInto c x a b s).getV 15 = subFlag c a b := State.getV_setV_self _ _ _
  rw [hvf, subFlag_eq_flagByte]
  exact ⟨(flagByte_eq_one_iff _).trans decide_eq_true_iff, flagByte_eq_one_or_zero _⟩

/-- Settles O42: `CXNN` is one write to VX, of the drawn byte AND NN, with `PC + 2` and one more draw. -/
theorem randomByteIsMasked : Obligations.RandomByteIsMasked := by
  intro x nn s
  have hx : (s.setV x (Config.rnd s.draws &&& nn)).getV x = Config.rnd s.draws &&& nn := s.getV_setV_self x _
  refine ⟨_, rfl, hx, fun b hb => ?_, fun r hr => s.getV_setV_of_ne _ hr, rfl, rfl, rfl⟩
  refine (congrArg (·.getLsbD b) hx).trans ?_
  rw [BitVec.getLsbD_and, hb, Bool.and_false]

end Sys2Proof.Proofs
end

section
/-!
Proofs for 41_control_flow.md and 20_memory.md: a return after a call, and a fetch after a store.
-/
namespace Sys2Proof.Proofs
open Sys2Proof Sys2Proof.Machine

/-- Settles O31: the return pops the entry the call wrote, at the `SP` before the call. -/
theorem callThenReturnResumes : Obligations.CallThenReturnResumes := by
  intro nnn s t u hsp ht hstack husp
  obtain ⟨t', ht', hentry, htsp, -⟩ := (callPushesAndJumps nnn s).1 hsp
  cases ht.symm.trans ht'
  have hlt : s.sp.val < 16 := Nat.lt_of_le_of_ne (Nat.le_of_lt_succ s.sp.isLt) fun h => hsp (Fin.ext h)
  obtain ⟨r, hr, hpc, hrsp, -⟩ := (retPopsOrUnderflows u).1 ⟨s.sp.val, hlt⟩ (by rw [husp, htsp])
  refine ⟨r, hr, ?_, Fin.ext hrsp⟩
  rw [hpc, hstack, hentry, if_pos rfl]

/-- Settles O49: a store that completes is inside memory, and its first two bytes are V0 and V1. -/
theorem fetchSeesStoredBytes : Obligations.FetchSeesStoredBytes := by
  intro x s t u hx hr ht hrun hmem hpc
  obtain ⟨f, hf, rfl⟩ | ⟨hf, -⟩ := exec_cases ht
  · exact absurd hrun (instrFault_cause_ne hf)
  · obtain ⟨hin, hres⟩ := storeFault_none (Nat.succ_pos x.val) hf
    obtain ⟨t', ht', hbytes, -⟩ := (registersStored x s).1 (by omega) hres
    cases ht.symm.trans ht'
    have h0 : Memory.read t.mem s.i.toNat = s.getV 0 := hbytes 0 (Fin.zero_le x)
    have h1 : Memory.read t.mem (s.i.toNat + 1) = s.getV 1 := hbytes 1 hx
    rw [fetch_eq, if_neg (by rw [hpc]; omega), State.nextWord, hmem, hpc, h0, h1]

end Sys2Proof.Proofs
end
